-- ==== Sys2Proof/Word.lean ====
section
/-! DEFINITION. The word types of the codec and the value primitives of `00_scope.md` rules R9 and R10. -/

namespace Sys2Proof

/-- A byte is 8 bits, bit 0 its least significant (R9). -/
abbrev Byte := BitVec 8

/-- A 16-bit unsigned pattern, `u16` (R10). -/
abbrev Half := BitVec 16

/-- A 32-bit pattern, `u32` (R10); the argument and the response data are of this width (R80, R81). -/
abbrev Word := BitVec 32

/-- A command word: 40 bits (R80). -/
abbrev CmdWord := BitVec 40

/-- A response word: 36 bits (R81). -/
abbrev RspWord := BitVec 36

/-- `le16(b0, b1)` as a mathematical integer (R10). -/
def le16 (b0 b1 : Byte) : Nat := b0.toNat + 256 * b1.toNat

/-- `le32(b0, b1, b2, b3)` as a mathematical integer (R10). -/
def le32 (b0 b1 b2 b3 : Byte) : Nat :=
  b0.toNat + 2 ^ 8 * b1.toNat + 2 ^ 16 * b2.toNat + 2 ^ 24 * b3.toNat

/-- `be16(b0, b1) = le16(b1, b0)` (R10). -/
def be16 (b0 b1 : Byte) : Nat := le16 b1 b0

/-- `be32(b0, b1, b2, b3) = le32(b3, b2, b1, b0)` (R10). -/
def be32 (b0 b1 b2 b3 : Byte) : Nat := le32 b3 b2 b1 b0

/-- `sint_k(v)`: the two's-complement reading of a `k`-bit pattern (R10).
PRESUMED by the spec itself (its one passage from general knowledge), log 8. -/
def sint {k : Nat} (v : BitVec k) : Int :=
  if v.msb then (v.toNat : Int) - 2 ^ k else v.toNat

end Sys2Proof
end

