-- ==== Sys2Proof/Syntax.lean ====
section
/-! DEFINITION. The sixteen operations of `30_encoding.md` rule R80, one constructor per row of `opcode_table.json`.
Each operand is the named slice of `arg`, an unsigned bit pattern of exactly that width (R82). -/

namespace Sys2Proof

/-- One operation of the codec (R80). -/
inductive Instr where
  /-- `PBRST`: reset the parameter buffer (R100). -/
  | pbrst
  /-- `PACKB v`: append one byte (R101). -/
  | packb (v : Byte)
  /-- `PACKS v`: append a 16-bit value little-endian (R102). -/
  | packs (v : Half)
  /-- `PACKI v`: append a 32-bit value little-endian (R103). -/
  | packi (v : Word)
  /-- `COMPOSE opcode`: build the command frame (R110). -/
  | compose (opcode : Byte)
  /-- `RXCLR`: empty the receive buffer (R120). -/
  | rxclr
  /-- `RXPUSH b`: append one received byte (R121). -/
  | rxpush (b : Byte)
  /-- `CLASSIFY`: type and length of the received frame (R122). -/
  | classify
  /-- `OPCODEOF`: the opcode byte of the received frame (R130). -/
  | opcodeof
  /-- `VERIFY`: check a command-layout frame's checksum (R113). -/
  | verify
  /-- `TRCLR`: empty the tag record (R140). -/
  | trclr
  /-- `DECINV`: decode an Inventory or Access frame into the tag record (R141). -/
  | decinv
  /-- `RDB off`: read one byte (R161). -/
  | rdb (off : Byte)
  /-- `RDS off, le`: read a signed 16-bit value; `le = true` is little-endian (R162). -/
  | rds (off : Byte) (le : Bool)
  /-- `RDI off, le`: read a signed 32-bit value; `le = true` is little-endian (R163). -/
  | rdi (off : Byte) (le : Bool)
  /-- `RDVER off`: read the three bytes of a version (R164). -/
  | rdver (off : Byte)
  deriving DecidableEq, Repr

/-- The table's mnemonic of an operation (R80). -/
def Instr.mnemonic : Instr → String
  | .pbrst => "PBRST" | .packb _ => "PACKB" | .packs _ => "PACKS" | .packi _ => "PACKI"
  | .compose _ => "COMPOSE" | .rxclr => "RXCLR" | .rxpush _ => "RXPUSH" | .classify => "CLASSIFY"
  | .opcodeof => "OPCODEOF" | .verify => "VERIFY" | .trclr => "TRCLR" | .decinv => "DECINV"
  | .rdb _ => "RDB" | .rds _ _ => "RDS" | .rdi _ _ => "RDI" | .rdver _ => "RDVER"

end Sys2Proof
end

