-- ==== Sys2Proof/WellFormed.lean ====
section
/-! DEFINITION. What is well-formed: an operation, a command word, a command word as the spec's own listings write it.

An operand of `Instr` has exactly the bits the command word has for it, so "a value too wide for the operation cannot
be expressed" (R82) and every term of `Instr` is well-formed. The checks that can fail are on command words. -/

namespace Sys2Proof

/-- Every operation is well-formed: no operand value is reserved (R82, R114, R160). -/
def Instr.wellFormed : Instr → Bool
  | .pbrst | .packb _ | .packs _ | .packi _ | .compose _ | .rxclr | .rxpush _ | .classify
  | .opcodeof | .verify | .trclr | .decinv | .rdb _ | .rds _ _ | .rdi _ _ | .rdver _ => true

/-- The `op` field `cmd[39:32]` selects an operation: 0x00 to 0x0F (R80); 0x10 to 0xFF are reserved (R83). -/
def CmdWord.selectsOp (w : CmdWord) : Bool := w.toNat / 2 ^ 32 < 16

/-- How many low bits of `arg` the operation with this `op` names (R80). -/
def usedArgBits (op : Nat) : Nat :=
  match op with
  | 1 => 8 | 2 => 16 | 3 => 32 | 4 => 8 | 6 => 8 | 12 => 8 | 13 => 9 | 14 => 9 | 15 => 8
  | _ => 0

/-- The argument bits the operation does not name are 0, as listings write them (R87). The codec ignores them (R84). -/
def CmdWord.unusedArgZero (w : CmdWord) : Bool :=
  w.toNat % 2 ^ 32 < 2 ^ usedArgBits (w.toNat / 2 ^ 32)

/-- A command word as the assembler syntax writes it: a defined operation, unused bits 0 (R87). -/
def CmdWord.canonical (w : CmdWord) : Bool := w.selectsOp && w.unusedArgZero

end Sys2Proof
end

