-- ==== Sys2Proof/Decode.lean ====
section
/-! DEFINITION. The command decoder (`30_encoding.md` rules R80, R82 to R84) and the encoder. -/

namespace Sys2Proof

/-- Why a command word selects no operation. -/
inductive DecodeError where
  /-- `op` in 0x10 to 0xFF: reserved (R83). Raised by `decode`; the codec answers `IllegalOp`. -/
  | illegalOp (op : Byte)
  deriving DecidableEq, Repr

/-- `cmd[39:32]` (R80). -/
def opField (w : CmdWord) : Byte := w.extractLsb' 32 8

/-- `cmd[31:0]` (R80). -/
def argField (w : CmdWord) : Word := w.extractLsb' 0 32

/-- `arg[7:0]`: `v`, `opcode`, `b` or `off` (R80). -/
def arg8 (w : CmdWord) : Byte := (argField w).extractLsb' 0 8

/-- `arg[15:0]`: the operand of `PACKS` (R80). -/
def arg16 (w : CmdWord) : Half := (argField w).extractLsb' 0 16

/-- `arg[8]`: `le` of `RDS` and `RDI` (R80). -/
def argLe (w : CmdWord) : Bool := (argField w).getLsbD 8

/-- The command decoder: total on every 40-bit word; a reserved `op` is rejected by name (R80, R83).
Argument bits an operation does not name are not looked at (R84). -/
def decode (w : CmdWord) : Except DecodeError Instr :=
  match (opField w).toNat with
  | 0x00 => .ok .pbrst
  | 0x01 => .ok (.packb (arg8 w))
  | 0x02 => .ok (.packs (arg16 w))
  | 0x03 => .ok (.packi (argField w))
  | 0x04 => .ok (.compose (arg8 w))
  | 0x05 => .ok .rxclr
  | 0x06 => .ok (.rxpush (arg8 w))
  | 0x07 => .ok .classify
  | 0x08 => .ok .opcodeof
  | 0x09 => .ok .verify
  | 0x0A => .ok .trclr
  | 0x0B => .ok .decinv
  | 0x0C => .ok (.rdb (arg8 w))
  | 0x0D => .ok (.rds (arg8 w) (argLe w))
  | 0x0E => .ok (.rdi (arg8 w) (argLe w))
  | 0x0F => .ok (.rdver (arg8 w))
  | _ => .error (.illegalOp (opField w))

/-- The `op` value of an operation (the table of R80). -/
def Instr.op : Instr → Byte
  | .pbrst => 0x00 | .packb _ => 0x01 | .packs _ => 0x02 | .packi _ => 0x03
  | .compose _ => 0x04 | .rxclr => 0x05 | .rxpush _ => 0x06 | .classify => 0x07
  | .opcodeof => 0x08 | .verify => 0x09 | .trclr => 0x0A | .decinv => 0x0B
  | .rdb _ => 0x0C | .rds _ _ => 0x0D | .rdi _ _ => 0x0E | .rdver _ => 0x0F

/-- The `arg` field of an operation, the bits it does not name written 0 (R80, R87). -/
def Instr.arg : Instr → Word
  | .packb v | .compose v | .rxpush v | .rdb v | .rdver v => v.setWidth 32
  | .packs v => v.setWidth 32
  | .packi v => v
  | .rds off le | .rdi off le => 0#23 ++ BitVec.ofBool le ++ off
  | .pbrst | .rxclr | .classify | .opcodeof | .verify | .trclr | .decinv => 0

/-- The command word of an operation (R80, R87). -/
def encode (i : Instr) : CmdWord := i.op ++ i.arg

/-- The decoder on a word given as a number, bit 0 the least significant bit of the command word; the bits from `nbits`
up are 0. A number of more than 40 bits is no command word (R86). -/
def decodeTableWord (nbits w : Nat) : Option Instr :=
  if w % 2 ^ nbits < 2 ^ 40 then
    match decode (BitVec.ofNat 40 (w % 2 ^ nbits)) with
    | .ok i => some i
    | .error _ => none
  else none

end Sys2Proof
end

