-- ==== Sys2Proof/Config.lean ====
section
/-! DEFINITION. The implementation parameters of `00_scope.md` rule R6: `MAGIC`, `TAG_*`, `OPCODE_TABLE`, `CRC16` and
`VERSION_RENDER`. The spec gives none of their values, so the codec's own configuration `hardware` is built from opaque
constants; only R6's two constraints hold of it (log 4). -/

namespace Sys2Proof

/-- The seven frame types, in the order the spec lists them (R73). -/
inductive FrameType where
  | command | response | beginFrame | inventory | access | endFrame | work
  deriving DecidableEq, Repr

/-- The seven types as a list, in the order of R73. -/
def FrameType.all : List FrameType :=
  [.command, .response, .beginFrame, .inventory, .access, .endFrame, .work]

/-- The configuration record of R6. It is not state (R43). -/
structure Config where
  /-- How many command identifiers the catalogue names: `CmdId` is the finite type `Fin nCmds` (log 5). -/
  nCmds : Nat
  /-- `MAGIC[0..3]`. -/
  magic : Vector Byte 4
  /-- `TAG_*`, one byte per frame type. -/
  tag : FrameType → Byte
  /-- `OPCODE_TABLE`: 256 entries, `none` = reserved (R132). -/
  opcodeTable : Byte → Option (Fin nCmds)
  /-- `CRC16`: total, deterministic, a function of the bytes and their count (R115). -/
  crc16 : List Byte → Half
  /-- `VERSION_RENDER`: host-side text of three bytes, open (R164). -/
  versionRender : Byte → Byte → Byte → String

/-- The constraints R6 puts on the parameters: `MAGIC[0] = TAG_COMMAND`, and the tags pairwise distinct. -/
def Config.WellFormed (c : Config) : Prop :=
  c.magic[0] = c.tag .command ∧ Function.Injective c.tag

/-! The values the spec does not give. A permutation of the bytes carries the tags, so that they are pairwise distinct
and nothing else is known of them: every choice of seven distinct bytes extends to a permutation (log 4). -/

opaque Param.tagPlace : Equiv.Perm Byte
opaque Param.magic1 : Byte
opaque Param.magic2 : Byte
opaque Param.magic3 : Byte
opaque Param.nCmds : Nat
opaque Param.opcodeTable : Byte → Option (Fin Param.nCmds)
opaque Param.crc16 : List Byte → Half
opaque Param.versionRender : Byte → Byte → Byte → String

/-- Where the permutation carries each type's tag from. -/
def FrameType.slot : FrameType → Byte
  | .command => 0 | .response => 1 | .beginFrame => 2 | .inventory => 3
  | .access => 4 | .endFrame => 5 | .work => 6

/-- The configuration of the codec: R6's parameters, of which nothing is known but R6's constraints. -/
def hardware : Config where
  nCmds := Param.nCmds
  magic := #v[Param.tagPlace FrameType.command.slot, Param.magic1, Param.magic2, Param.magic3]
  tag := fun t => Param.tagPlace t.slot
  opcodeTable := Param.opcodeTable
  crc16 := Param.crc16
  versionRender := Param.versionRender

end Sys2Proof
end

