-- ==== Sys2Proof/Machine/State.lean ====
section
/-! DEFINITION. The state of one codec instance (`10_state.md`), with the host's side of the command port, as plain data;
the statuses and the response (`60_exceptions.md` rule R170, `30_encoding.md` rule R81); the state after reset (R42). -/

namespace Sys2Proof.Machine

/-- The nine statuses of R170. Codes 9 to 15 are never produced. -/
inductive Status where
  | ok | parameterOverflow | unknownFrameType | unknownOpcode | truncatedFrame
  | checksumMismatch | crcInvalidFlag | wrongFrameFamily | illegalOp
  deriving DecidableEq, Repr

/-- The answer to one command word: status and data (R81, R171). -/
structure Response where
  status : Status
  data : Word
  deriving DecidableEq, Repr

/-- The tag record `TR` (R30 to R37). Each optional field is a value register and a valid bit. -/
structure TagRecord where
  /-- `TR.EPC[0..47]` (R31). -/
  epc : Vector Byte 48
  /-- `TR.EPCLEN`, 6 bits (R31). -/
  epclen : BitVec 6
  /-- `TR.CRCVALID` (R32). -/
  crcValid : Bool
  /-- `TR.RSSI`, a 16-bit signed pattern (R33). -/
  rssi : Half
  /-- `TR.RSSIV` (R33). -/
  rssiV : Bool
  /-- `TR.PORT` (R34). -/
  port : Byte
  /-- `TR.PORTV` (R34). -/
  portV : Bool
  /-- `TR.PHASE`, 6 bits (R35). -/
  phase : BitVec 6
  /-- `TR.PHASEV` (R35). -/
  phaseV : Bool
  /-- `TR.TEMP`, an 8-bit signed pattern (R36). -/
  temp : Byte
  /-- `TR.TEMPV` (R36). -/
  tempV : Bool
  /-- `TR.FREQ`, a 32-bit signed pattern (R37). -/
  freq : Word
  /-- `TR.FREQV` (R37). -/
  freqV : Bool
  deriving DecidableEq, Repr

/-- The complete state of one codec instance, the tuple of R20. -/
structure Codec where
  /-- `PB[0..7]` (R21). -/
  pb : Vector Byte 8
  /-- `PLEN`, 4 bits (R22). -/
  plen : BitVec 4
  /-- `POVF` (R23). -/
  povf : Bool
  /-- `TX[0..15]` (R26). -/
  tx : Vector Byte 16
  /-- `TXVALID` (R26). -/
  txValid : Bool
  /-- `RX[0..63]` (R27). -/
  rx : Vector Byte 64
  /-- `RXLEN`, 7 bits (R27). -/
  rxlen : BitVec 7
  /-- `TR` (R30). -/
  tr : TagRecord
  deriving DecidableEq, Repr

/-- What the host does at the command port, one at a time (R199). -/
inductive HostInput where
  /-- Issue one 40-bit command word, any value (R80, R199). -/
  | command (w : CmdWord)
  /-- The reset event, between operations (R190, R191). -/
  | reset
  deriving DecidableEq, Repr

/-- The machine: the codec, the host's events not yet taken, and the responses given so far.
`pending` and `rsps` are the model's own (R43, R203; logs 1 and 2): no operation reads either. -/
structure State where
  codec : Codec
  /-- The host's events, oldest first. -/
  pending : List HostInput
  /-- The responses, oldest first. -/
  rsps : List Response
  deriving DecidableEq, Repr

/-- Nothing stops the codec with a fault: its step is total and every failure is a status (R12, R171, R176). -/
inductive Fault where
  deriving DecidableEq, Repr

/-- Why an instruction has no meaning in the model. -/
inductive Refusal where
  /-- The model gives the instruction no meaning yet. Raised only by an arm of `exec` (no arm raises it now). Safe. -/
  | notModelled (mnemonic : String)
  deriving DecidableEq, Repr

/-- How an operation ends (R11): `complete(data)` with the codec's next state, or `raise <Status>(info)`,
which carries no state because it writes none (R176). -/
inductive OpResult where
  | complete (k : Codec) (data : Word)
  | raise (status : Status) (info : Word)
  deriving DecidableEq, Repr

/-- The empty tag record (R42, R140). -/
def TagRecord.empty : TagRecord where
  epc := Vector.replicate 48 0
  epclen := 0
  crcValid := false
  rssi := 0
  rssiV := false
  port := 0
  portV := false
  phase := 0
  phaseV := false
  temp := 0
  tempV := false
  freq := 0
  freqV := false

/-- The codec after reset (R42, R190). -/
def Codec.reset : Codec where
  pb := Vector.replicate 8 0
  plen := 0
  povf := false
  tx := Vector.replicate 16 0
  txValid := false
  rx := Vector.replicate 64 0
  rxlen := 0
  tr := TagRecord.empty

/-- The machine right after reset: the codec as R42 says, no event issued and no response given (logs 1 and 2). -/
def State.reset : State where
  codec := Codec.reset
  pending := []
  rsps := []

end Sys2Proof.Machine
end

