-- ==== Sys2Proof/Machine/Ops.lean ====
section
/-! DEFINITION. The shared operations: named updates of the state, reads of the buffers (`00_scope.md` rule R11), the two
ends of an operation (`complete` and `raise`, R11, R171, R176), and the append primitives of the two input buffers. -/

namespace Sys2Proof.Machine

/-! ### Named updates -/

/-- Write `PB`, `PLEN`, `POVF`. -/
def Codec.setPacker (k : Codec) (pb : Vector Byte 8) (plen : BitVec 4) (povf : Bool) : Codec :=
  { k with pb := pb, plen := plen, povf := povf }

/-- Write `TX`, `TXVALID`. -/
def Codec.setTx (k : Codec) (tx : Vector Byte 16) (valid : Bool) : Codec :=
  { k with tx := tx, txValid := valid }

/-- Write `RX`, `RXLEN`. -/
def Codec.setRx (k : Codec) (rx : Vector Byte 64) (rxlen : BitVec 7) : Codec :=
  { k with rx := rx, rxlen := rxlen }

/-- Write the tag record. -/
def Codec.setTr (k : Codec) (tr : TagRecord) : Codec := { k with tr := tr }

/-- The machine after an operation has been answered: the codec's state and one more response word (R12, R171). -/
def State.answered (s : State) (k : Codec) (r : Response) : State :=
  { s with codec := k, rsps := s.rsps ++ [r] }

/-- The machine after the host's oldest event has been taken from the port. -/
def State.withPending (s : State) (pending : List HostInput) : State := { s with pending := pending }

/-- The machine after a reset event: the codec at its reset values, no response (R190, R191). -/
def State.withReset (s : State) : State := { s with codec := Codec.reset }

/-! ### Ends of an operation -/

/-- The codec's next state: a raised status changes nothing at all (R176). -/
def nextCodec (k : Codec) : OpResult → Codec
  | .complete k' _ => k'
  | .raise _ _ => k

/-- The one response word of an operation (R81, R171). -/
def responseOf : OpResult → Response
  | .complete _ data => ⟨.ok, data⟩
  | .raise st info => ⟨st, info⟩

/-- Deliver the end of an operation. This is the codec's only "exception entry": the status is returned, not stored, and
control goes nowhere; there is nothing to return from (R171, R175, R176, R177). -/
def deliver (s : State) (r : OpResult) : Host.Outcome State Fault Refusal :=
  .next (s.answered (nextCodec s.codec r) (responseOf r))

/-! ### Reads -/

/-- The byte at an offset of a buffer. Every caller has checked the offset; beyond the buffer there is no byte. -/
def byteAt {n : Nat} (b : Vector Byte n) (off : Nat) : Byte := b.getD off 0

/-- The four byte-addressed spaces of R50. -/
inductive Space where
  | pb | tx | rx | epc
  deriving DecidableEq, Repr

/-- `MemRead(S, a, 1)`: the byte of space `sp` at offset `a`, `none` where the space has no such offset (R11, R50). -/
def spaceByte (k : Codec) (sp : Space) (a : Nat) : Option Byte :=
  match sp with
  | .pb => k.pb[a]?
  | .tx => k.tx[a]?
  | .rx => k.rx[a]?
  | .epc => k.tr.epc[a]?

/-- `RXN = min(RXLEN, 64)`, the number of stored bytes (R28). -/
def rxn (k : Codec) : Nat := min k.rxlen.toNat 64

/-- The packed parameter bytes `PB[0..PLEN-1]` (R11, R110). -/
def packedBytes (k : Codec) : List Byte := k.pb.toList.take k.plen.toNat

/-! ### Appends -/

/-- `append1(b)`: store at `PB[PLEN]`, or drop the byte and set `POVF` (R104). -/
def append1 (b : Byte) (k : Codec) : Codec :=
  if k.plen.toNat < 8 then k.setPacker (k.pb.setIfInBounds k.plen.toNat b) (k.plen + 1) k.povf
  else k.setPacker k.pb k.plen true

/-- Several `append1`, first byte first. -/
def appendBytes (bs : List Byte) (k : Codec) : Codec := bs.foldl (fun k b => append1 b k) k

/-- Append one received byte; the 65th and later are dropped and `RXLEN` stays 65 (R121). -/
def pushRx (b : Byte) (k : Codec) : Codec :=
  if k.rxlen.toNat < 64 then k.setRx (k.rx.setIfInBounds k.rxlen.toNat b) (k.rxlen + 1)
  else k.setRx k.rx 65

end Sys2Proof.Machine
end

