-- ==== Sys2Proof/Machine/Operands.lean ====
section
/-! DEFINITION. Operand and result forms: byte slices, field assembly, the bounded read of the receive buffer, the layouts
of the response word (`30_encoding.md` rules R74 to R82, `45_status_decoder.md` rule R160), the frame type table (R73). -/

namespace Sys2Proof.Machine

/-! ### Slices and field assembly -/

/-- Byte `i` of a value, byte 0 the least significant: `v[8i+7:8i]` (R9). -/
def byteSlice {n : Nat} (v : BitVec n) (i : Nat) : Byte := v.extractLsb' (8 * i) 8

/-- The `n` bytes of a value, little-endian: least significant first (R51, R101 to R103). -/
def leBytes {m : Nat} (n : Nat) (v : BitVec m) : List Byte := (List.range n).map (byteSlice v)

/-- The 16-bit pattern of two bytes, the second the more significant. -/
def half (lo hi : Byte) : Half := hi ++ lo

/-- The 32-bit pattern of four bytes, the last the most significant. -/
def word (b0 b1 b2 b3 : Byte) : Word := b3 ++ b2 ++ b1 ++ b0

/-- The 16-bit pattern at `off` of a buffer, in the byte order `le` selects (R162). -/
def halfAt {n : Nat} (b : Vector Byte n) (off : Nat) (le : Bool) : Half :=
  if le then half (byteAt b off) (byteAt b (off + 1)) else half (byteAt b (off + 1)) (byteAt b off)

/-- The 32-bit pattern at `off` of a buffer, in the byte order `le` selects (R163). -/
def wordAt {n : Nat} (b : Vector Byte n) (off : Nat) (le : Bool) : Word :=
  if le then word (byteAt b off) (byteAt b (off + 1)) (byteAt b (off + 2)) (byteAt b (off + 3))
  else word (byteAt b (off + 3)) (byteAt b (off + 2)) (byteAt b (off + 1)) (byteAt b off)

/-- The read of `w` bytes at `off` of the stored frame: out of range is `TruncatedFrame` with data 0 and nothing is read;
in range the operation completes with `data` and writes nothing (R160). -/
def boundedRead (k : Codec) (off w : Nat) (data : Word) : OpResult :=
  if off + w ≤ rxn k then .complete k data else .raise .truncatedFrame 0

/-! ### Frame types -/

/-- The declared length of each frame type (R7, R73). -/
def declaredLength : FrameType → Nat
  | .command => 16 | .response => 16 | .beginFrame => 24 | .inventory => 64
  | .access => 64 | .endFrame => 24 | .work => 24

/-- The type code of each frame type in the `CLASSIFY` response (R73). -/
def typeCode : FrameType → BitVec 3
  | .command => 0 | .response => 1 | .beginFrame => 2 | .inventory => 3
  | .access => 4 | .endFrame => 5 | .work => 6

/-- `tagtype`: the partial map from a tag byte to a type (R73, R123). -/
def tagType (c : Config) (b : Byte) : Option FrameType :=
  FrameType.all.find? fun t => c.tag t == b

/-! ### Response layouts (R81) -/

/-- `CLASSIFY`: `data[14:8]` the declared length, `data[2:0]` the type code (R81, R122). -/
def classifyData (t : FrameType) : Word :=
  0#17 ++ BitVec.ofNat 7 (declaredLength t) ++ 0#5 ++ typeCode t

/-- `VERIFY`: expected trailer above, stored trailer below (R81, R113). -/
def verifyData (expected stored : Half) : Word := expected ++ stored

/-- `DECINV`: `data[9]` telemetry, `data[8]` first frame, `data[5:0]` the identifier length (R81, R141). -/
def decinvData (telem first : Bool) (len : Nat) : Word :=
  0#22 ++ BitVec.ofBool telem ++ BitVec.ofBool first ++ 0#2 ++ BitVec.ofNat 6 len

/-- `RDVER`: the three bytes in offset order from bit 0 up, `data[31:24] = 0` (R81, R164). -/
def versionData (b0 b1 b2 : Byte) : Word := word b0 b1 b2 0

/-- The numeric code of a status (R170). -/
def statusCode : Status → BitVec 4
  | .ok => 0 | .parameterOverflow => 1 | .unknownFrameType => 2 | .unknownOpcode => 3 | .truncatedFrame => 4
  | .checksumMismatch => 5 | .crcInvalidFlag => 6 | .wrongFrameFamily => 7 | .illegalOp => 8

/-- The 36-bit response word: `rsp[35:32] = status`, `rsp[31:0] = data` (R81). -/
def responseWord (r : Response) : RspWord := statusCode r.status ++ r.data

end Sys2Proof.Machine
end

