-- ==== Sys2Proof/Machine/Flags.lean ====
section
/-! DEFINITION. Flag computations. The codec has no condition codes (R39); its flags are the bits of the received flags
byte (`30_encoding.md` rule R75) and the valid bits of the tag record, whose writes R147 lists. `POVF` is written by
`append1` (R104) and `TXVALID` by `COMPOSE` (R110) only. -/

namespace Sys2Proof.Machine

/-- The InventoryFlags byte, offset 7 (R75). -/
def frameFlags (rx : Vector Byte 64) : Byte := rx[7]

/-- Bit 0, inverted: 1 says that the tag's response was invalid (R75). -/
def crcFlagged (rx : Vector Byte 64) : Bool := (frameFlags rx).getLsbD 0

/-- The telemetry block is present iff bits 1 and 3 are both 1; no other bit matters (R75, R145). -/
def frameTelem (rx : Vector Byte 64) : Bool := (frameFlags rx).getLsbD 1 && (frameFlags rx).getLsbD 3

/-- The relative sequence, offset 5, unsigned: 0 and 1 are a first frame, 2 to 255 a continuation (R143). -/
def frameFirst (rx : Vector Byte 64) : Bool := decide (rx[5].toNat ≤ 1)

/-- Whether a status is an error: every one but `OK` and `CrcInvalidFlag` (R173). -/
def isError : Status → Bool
  | .ok | .crcInvalidFlag => false
  | .parameterOverflow | .unknownFrameType | .unknownOpcode | .truncatedFrame
  | .checksumMismatch | .wrongFrameFamily | .illegalOp => true

end Sys2Proof.Machine
end

