-- ==== Sys2Proof/Machine/Classifier.lean ====
section
/-! DEFINITION. The receive buffer and the FrameClassifier: RXCLR, RXPUSH, CLASSIFY (`42_frame_classifier.md`). -/

namespace Sys2Proof.Machine

/-- `RXCLR`: all of `RX` zero, `RXLEN` zero; always `OK` (R120). -/
def rxclrOp (k : Codec) : OpResult := .complete (k.setRx (Vector.replicate 64 0) 0) 0

/-- `RXPUSH b`: append one byte; always `OK`, also when it is dropped (R121). -/
def rxpushOp (b : Byte) (k : Codec) : OpResult := .complete (pushRx b k) 0

/-- The pure function `classify(RX, RXLEN)`, its checks in the order of R123: a frame type, or the status that refuses
the buffer. The declared length of the pair R123 returns is `declaredLength` of the type. -/
def classifyFrame (c : Config) (k : Codec) : Except Status FrameType :=
  if k.rxlen = 0 then .error .truncatedFrame
  else match tagType c k.rx[0] with
    | none => .error .unknownFrameType
    | some t => if k.rxlen.toNat = declaredLength t then .ok t else .error .truncatedFrame

/-- `CLASSIFY` (R122). -/
def classifyOp (c : Config) (k : Codec) : OpResult :=
  match classifyFrame c k with
  | .error st => .raise st 0
  | .ok t => .complete k (classifyData t)

/-- `RXCLR` (R120). -/
def execRxclr (s : State) : Host.Outcome State Fault Refusal := deliver s (rxclrOp s.codec)

/-- `RXPUSH b` (R121). -/
def execRxpush (b : Byte) (s : State) : Host.Outcome State Fault Refusal := deliver s (rxpushOp b s.codec)

/-- `CLASSIFY` (R122). -/
def execClassify (s : State) : Host.Outcome State Fault Refusal := deliver s (classifyOp hardware s.codec)

end Sys2Proof.Machine
end

