-- ==== Sys2Proof/Machine/FrameCodec.lean ====
section
/-! DEFINITION. The FrameCodec operations COMPOSE and VERIFY (`41_frame_codec.md`). -/

namespace Sys2Proof.Machine

/-- Bytes 0 to 13 of a command frame: magic, 0xFF, opcode, the parameter bytes zero-padded to eight (R70, R111). -/
def frameBody (c : Config) (opcode : Byte) (p : List Byte) : Vector Byte 14 :=
  #v[c.magic[0], c.magic[1], c.magic[2], c.magic[3], 0xFF, opcode,
     p.getD 0 0, p.getD 1 0, p.getD 2 0, p.getD 3 0, p.getD 4 0, p.getD 5 0, p.getD 6 0, p.getD 7 0]

/-- The checksum trailer `K = ~CRC16(bytes)`, 16 bits (R71, R115). -/
def trailer (c : Config) (bytes : List Byte) : Half := ~~~(c.crc16 bytes)

/-- The pure function `compose(opcode, p)` for `p` of at most eight bytes (R111). -/
def composeFrame (c : Config) (opcode : Byte) (p : List Byte) : Vector Byte 16 :=
  let body := frameBody c opcode p
  let t := trailer c body.toList
  (body.push (byteSlice t 0)).push (byteSlice t 1)

/-- `COMPOSE opcode`: any opcode; fails only when more than eight bytes were packed (R110, R114). -/
def composeOp (c : Config) (opcode : Byte) (k : Codec) : OpResult :=
  if k.povf then .raise .parameterOverflow 0
  else .complete (k.setTx (composeFrame c opcode (packedBytes k)) true) 0

/-- The stored trailer `le16(RX[14], RX[15])` as a pattern (R113). -/
def storedTrailer (rx : Vector Byte 64) : Half := half rx[14] rx[15]

/-- The trailer recomputed over `RX[0..13]` (R113). -/
def expectedTrailer (c : Config) (rx : Vector Byte 64) : Half := trailer c (rx.toList.take 14)

/-- `VERIFY`: classify, require type Command, compare the trailers (R113). -/
def verifyOp (c : Config) (k : Codec) : OpResult :=
  match classifyFrame c k with
  | .error st => .raise st 0
  | .ok t =>
    if t = .command then
      if storedTrailer k.rx = expectedTrailer c k.rx then
        .complete k (verifyData (expectedTrailer c k.rx) (storedTrailer k.rx))
      else .raise .checksumMismatch (verifyData (expectedTrailer c k.rx) (storedTrailer k.rx))
    else .raise .wrongFrameFamily 0

/-- `COMPOSE opcode` (R110). -/
def execCompose (opcode : Byte) (s : State) : Host.Outcome State Fault Refusal :=
  deliver s (composeOp hardware opcode s.codec)

/-- `VERIFY` (R113). -/
def execVerify (s : State) : Host.Outcome State Fault Refusal := deliver s (verifyOp hardware s.codec)

end Sys2Proof.Machine
end

