-- ==== Sys2Proof/Machine/Inventory.lean ====
section
/-! DEFINITION. The InventoryResponseDecoder: TRCLR and DECINV (`44_inventory_decoder.md`). Everything DECINV writes is
computed from `RX` alone and written in one piece (R147). -/

namespace Sys2Proof.Machine

/-- `TRCLR`: the empty record; always `OK` (R140). -/
def trclrOp (k : Codec) : OpResult := .complete (k.setTr TagRecord.empty) 0

/-- The data start `D` before step 4: 26 on a first frame, 14 on a continuation (R143). -/
def dataStart (rx : Vector Byte 64) : Nat := if frameFirst rx then 26 else 14

/-- The size of the telemetry block: 8 when present, else 0 (R74, R145). -/
def telemSize (rx : Vector Byte 64) : Nat := if frameTelem rx then 8 else 0

/-- The info length, offsets 10 and 11, little-endian, unsigned (R77, R52). -/
def infoLength (rx : Vector Byte 64) : Nat := le16 rx[10] rx[11]

/-- `extra = (IL - 3) * 4`, a mathematical integer, possibly negative (R77, R144). -/
def extraBytes (rx : Vector Byte 64) : Int := ((infoLength rx : Int) - 3) * 4

/-- The identifier length `L` after step 4: `extra - 4`, less the telemetry block (R144, R145). -/
def idLength (rx : Vector Byte 64) : Int := extraBytes rx - 4 - telemSize rx

/-- The identifier's offset `S = D + 2` after step 4 (R145, R146). -/
def idStart (rx : Vector Byte 64) : Nat := dataStart rx + telemSize rx + 2

/-- The bounds test of step 6: `L < 0 or S + L > 64` (R146). -/
def idOutOfRange (rx : Vector Byte 64) : Bool :=
  decide (idLength rx < 0 ∨ (idStart rx : Int) + idLength rx > 64)

/-- The 48-byte identifier register: `L` bytes of the frame from `S`, then zeros (R141). -/
def idBytes (rx : Vector Byte 64) : Vector Byte 48 :=
  Vector.ofFn fun i => if (i.val : Int) < idLength rx then byteAt rx (idStart rx + i.val) else 0

/-- The fields every successful decode writes: `CRCVALID`, `EPCLEN`, `EPC` (R147). -/
def commitId (rx : Vector Byte 64) (tr : TagRecord) : TagRecord :=
  { tr with crcValid := true, epclen := BitVec.ofInt 6 (idLength rx), epc := idBytes rx }

/-- The fields of a first frame: `RSSI`, offsets 22 and 23 little-endian, and its valid bit (R143, R147, R52). -/
def commitRssi (rx : Vector Byte 64) (tr : TagRecord) : TagRecord :=
  if frameFirst rx then { tr with rssi := half rx[22] rx[23], rssiV := true } else tr

/-- The fields of a frame with telemetry, read from the block at the data start: port +0, phase +1 (low 6 bits),
temperature +2, frequency +4 to +7 little-endian; +3 is not read (R76, R145, R147). -/
def commitTelem (rx : Vector Byte 64) (tr : TagRecord) : TagRecord :=
  if frameTelem rx then
    { tr with
      port := byteAt rx (dataStart rx), portV := true
      phase := (byteAt rx (dataStart rx + 1)).extractLsb' 0 6, phaseV := true
      temp := byteAt rx (dataStart rx + 2), tempV := true
      freq := wordAt rx (dataStart rx + 4) true, freqV := true }
  else tr

/-- The commit: the only writes of the operation (R147). -/
def commitRecord (rx : Vector Byte 64) (tr : TagRecord) : TagRecord :=
  commitTelem rx (commitRssi rx (commitId rx tr))

/-- Steps 1 to 6 on an admitted frame: the CRC flag first, then the bounds, then the commit (R141 to R147). -/
def decodeFrame (k : Codec) : OpResult :=
  if crcFlagged k.rx then .raise .crcInvalidFlag 0
  else if idOutOfRange k.rx then .raise .truncatedFrame 0
  else .complete (k.setTr (commitRecord k.rx k.tr))
    (decinvData (frameTelem k.rx) (frameFirst k.rx) (idLength k.rx).toNat)

/-- `DECINV`: admission, then the frame (R141, R142). -/
def decinvOp (c : Config) (k : Codec) : OpResult :=
  match classifyFrame c k with
  | .error st => .raise st 0
  | .ok t => if t = .inventory ∨ t = .access then decodeFrame k else .raise .wrongFrameFamily 0

/-- `TRCLR` (R140). -/
def execTrclr (s : State) : Host.Outcome State Fault Refusal := deliver s (trclrOp s.codec)

/-- `DECINV` (R141). -/
def execDecinv (s : State) : Host.Outcome State Fault Refusal := deliver s (decinvOp hardware s.codec)

end Sys2Proof.Machine
end

