-- ==== Sys2Proof/Machine/OpcodeResolution.lean ====
section
/-! DEFINITION. Opcode Resolution: OPCODEOF (`43_opcode_resolution.md`). -/

namespace Sys2Proof.Machine

/-- `OPCODEOF`: the byte at offset 5 as the unsigned index of `OPCODE_TABLE`; the byte is returned whether or not the
entry is reserved; no classification (R130, R131). -/
def opcodeofOp (c : Config) (k : Codec) : OpResult :=
  if rxn k < 6 then .raise .truncatedFrame 0
  else match c.opcodeTable k.rx[5] with
    | none => .raise .unknownOpcode (k.rx[5].setWidth 32)
    | some _ => .complete k (k.rx[5].setWidth 32)

/-- The abstract result of a successful `OPCODEOF`: the opcode value and the symbolic command (R130). -/
def symbolicOpcode (c : Config) (k : Codec) : Option (Nat × Fin c.nCmds) :=
  if rxn k < 6 then none
  else (c.opcodeTable k.rx[5]).map fun cmd => (k.rx[5].toNat, cmd)

/-- `OPCODEOF` (R130). -/
def execOpcodeof (s : State) : Host.Outcome State Fault Refusal := deliver s (opcodeofOp hardware s.codec)

end Sys2Proof.Machine
end

