-- ==== Sys2Proof/Machine/Packer.lean ====
section
/-! DEFINITION. The ParameterPacker operations PBRST, PACKB, PACKS, PACKI (`40_parameter_packer.md`), and the unbounded
byte sequence they stand for (`10_state.md` rule R24). -/

namespace Sys2Proof.Machine

/-- `PBRST`: all of `PB` zero, `PLEN` and `POVF` zero; always `OK` (R100). -/
def pbrstOp (k : Codec) : OpResult := .complete (k.setPacker (Vector.replicate 8 0) 0 false) 0

/-- A pack operation: append the bytes in order; always `OK`, also when bytes are dropped (R101 to R104). -/
def packOp (bs : List Byte) (k : Codec) : OpResult := .complete (appendBytes bs k) 0

/-- `PBRST` (R100). -/
def execPbrst (s : State) : Host.Outcome State Fault Refusal := deliver s (pbrstOp s.codec)

/-- `PACKB v` (R101). -/
def execPackb (v : Byte) (s : State) : Host.Outcome State Fault Refusal := deliver s (packOp (leBytes 1 v) s.codec)

/-- `PACKS v` (R102). -/
def execPacks (v : Half) (s : State) : Host.Outcome State Fault Refusal := deliver s (packOp (leBytes 2 v) s.codec)

/-- `PACKI v` (R103). -/
def execPacki (v : Word) (s : State) : Host.Outcome State Fault Refusal := deliver s (packOp (leBytes 4 v) s.codec)

/-- The abstract view: the packer's registers stand for the unbounded byte sequence `p` (R24). -/
def StandsFor (k : Codec) (p : List Byte) : Prop :=
  k.plen.toNat = min p.length 8 ∧
  (∀ i, (h : i < 8) → k.pb[i] = if h' : i < p.length then p[i] else 0) ∧
  k.povf = decide (8 < p.length)

end Sys2Proof.Machine
end

