-- ==== Sys2Proof/Machine/StatusDecoder.lean ====
section
/-! DEFINITION. The StatusDecoder: RDB, RDS, RDI, RDVER (`45_status_decoder.md`). None classifies the buffer, none writes
state, and none validates what it reads (R160, R165). -/

namespace Sys2Proof.Machine

/-- `RDB off`: the byte, zero-extended (R161). -/
def rdbOp (off : Byte) (k : Codec) : OpResult :=
  boundedRead k off.toNat 1 ((byteAt k.rx off.toNat).setWidth 32)

/-- `RDS off, le`: the 16-bit value, sign-extended (R162). -/
def rdsOp (off : Byte) (le : Bool) (k : Codec) : OpResult :=
  boundedRead k off.toNat 2 ((halfAt k.rx off.toNat le).signExtend 32)

/-- `RDI off, le`: the 32-bit pattern (R163). -/
def rdiOp (off : Byte) (le : Bool) (k : Codec) : OpResult :=
  boundedRead k off.toNat 4 (wordAt k.rx off.toNat le)

/-- `RDVER off`: three bytes in offset order (R164). -/
def rdverOp (off : Byte) (k : Codec) : OpResult :=
  boundedRead k off.toNat 3
    (versionData (byteAt k.rx off.toNat) (byteAt k.rx (off.toNat + 1)) (byteAt k.rx (off.toNat + 2)))

/-- `RDB off` (R161). -/
def execRdb (off : Byte) (s : State) : Host.Outcome State Fault Refusal := deliver s (rdbOp off s.codec)

/-- `RDS off, le` (R162). -/
def execRds (off : Byte) (le : Bool) (s : State) : Host.Outcome State Fault Refusal := deliver s (rdsOp off le s.codec)

/-- `RDI off, le` (R163). -/
def execRdi (off : Byte) (le : Bool) (s : State) : Host.Outcome State Fault Refusal := deliver s (rdiOp off le s.codec)

/-- `RDVER off` (R164). -/
def execRdver (off : Byte) (s : State) : Host.Outcome State Fault Refusal := deliver s (rdverOp off s.codec)

end Sys2Proof.Machine
end

