-- ==== Sys2Proof/Machine/Dispatch.lean ====
section
/-! DEFINITION. One arm per operation of the table (`30_encoding.md` rule R80). -/

namespace Sys2Proof.Machine

def exec (i : Instr) (s : State) : Host.Outcome State Fault Refusal :=
  match i with
  | .pbrst => Sys2Proof.Machine.execPbrst s
  | .packb v => Sys2Proof.Machine.execPackb v s
  | .packs v => Sys2Proof.Machine.execPacks v s
  | .packi v => Sys2Proof.Machine.execPacki v s
  | .compose opcode => Sys2Proof.Machine.execCompose opcode s
  | .rxclr => Sys2Proof.Machine.execRxclr s
  | .rxpush b => Sys2Proof.Machine.execRxpush b s
  | .classify => Sys2Proof.Machine.execClassify s
  | .opcodeof => Sys2Proof.Machine.execOpcodeof s
  | .verify => Sys2Proof.Machine.execVerify s
  | .trclr => Sys2Proof.Machine.execTrclr s
  | .decinv => Sys2Proof.Machine.execDecinv s
  | .rdb off => Sys2Proof.Machine.execRdb off s
  | .rds off le => Sys2Proof.Machine.execRds off le s
  | .rdi off le => Sys2Proof.Machine.execRdi off le s
  | .rdver off => Sys2Proof.Machine.execRdver off s

end Sys2Proof.Machine
end

