-- ==== Sys2Proof/Machine/Port.lean ====
section
/-! DEFINITION. The command port: what one event of the host does (`70_reset_and_hazards.md` rules R190, R191, R199). -/

namespace Sys2Proof.Machine

/-- A command word: decoded and executed; a reserved `op` is answered `IllegalOp` before anything else (R80, R83, R174). -/
def serveWord (w : CmdWord) (s : State) : Host.Outcome State Fault Refusal :=
  match decode w with
  | .ok i => exec i s
  | .error (.illegalOp _) => deliver s (.raise .illegalOp 0)

/-- One event of the host: a command word is answered; a reset gives the reset state and no response (R190, R191). -/
def serve (e : HostInput) (s : State) : Host.Outcome State Fault Refusal :=
  match e with
  | .command w => serveWord w s
  | .reset => .next s.withReset

/-- One step: take the host's oldest event and serve it to its end (R12, R59). With no event the codec is ready and
nothing runs by itself (R188, R190): DESIGN CHOICE, the step then leaves the state as it is (log 3). -/
def stepPort (s : State) : Host.Outcome State Fault Refusal :=
  match s.pending with
  | [] => .next s
  | e :: rest => serve e (s.withPending rest)

/-- A command word given as a number, its bits from `nbits` up 0, put at the head of the host's events (log 1). -/
def issueFirst (s : State) (nbits w : Nat) : State :=
  s.withPending (.command (BitVec.ofNat 40 (w % 2 ^ nbits)) :: s.pending)

end Sys2Proof.Machine
end

