-- ==== Sys2Proof/Machine/Step.lean ====
section
/-! DEFINITION. One step of the machine (`00_scope.md` rule R12). The codec has no program counter (R25): it takes the next
command word from the host's port. -/

namespace Sys2Proof.Machine

/-- One step: the complete execution of the host's next event. -/
def step (s : State) : Host.Outcome State Fault Refusal := stepPort s

/-- The machine with the given command word as the very next one the host issues (log 1). -/
def State.withFetchWord (s : State) (nbits w : Nat) : State := issueFirst s nbits w

end Sys2Proof.Machine
end

