-- ==== Sys2Proof/Machine/Transform.lean ====
section
/-! DEFINITION. The codec as the total function of `00_scope.md` rule R12 and decision D1, `State x Cmd -> State x Rsp`, for
any configuration of R6, and a run as R203 defines it. The meanings of the families are the same functions at the codec's
own configuration; here they can be run under the test configuration of `95_test_vectors.md`. -/

namespace Sys2Proof.Machine

/-- The end of one operation from a codec state, for a given configuration. -/
def opResult (c : Config) (i : Instr) (k : Codec) : OpResult :=
  match i with
  | .pbrst => pbrstOp k
  | .packb v => packOp (leBytes 1 v) k
  | .packs v => packOp (leBytes 2 v) k
  | .packi v => packOp (leBytes 4 v) k
  | .compose opcode => composeOp c opcode k
  | .rxclr => rxclrOp k
  | .rxpush b => rxpushOp b k
  | .classify => classifyOp c k
  | .opcodeof => opcodeofOp c k
  | .verify => verifyOp c k
  | .trclr => trclrOp k
  | .decinv => decinvOp c k
  | .rdb off => rdbOp off k
  | .rds off le => rdsOp off le k
  | .rdi off le => rdiOp off le k
  | .rdver off => rdverOp off k

/-- The end of one command word, reserved ones among them (R83). -/
def wordResult (c : Config) (w : CmdWord) (k : Codec) : OpResult :=
  match decode w with
  | .ok i => opResult c i k
  | .error (.illegalOp _) => .raise .illegalOp 0

/-- R12's step: exactly one next state and one response for every state and every command word. -/
def codecStep (c : Config) (w : CmdWord) (k : Codec) : Codec × Response :=
  (nextCodec k (wordResult c w k), responseOf (wordResult c w k))

/-- A run: the command words applied left to right; observed are the responses and the final state (R203). -/
def codecRun (c : Config) : List CmdWord → Codec → Codec × List Response
  | [], k => (k, [])
  | w :: ws, k =>
    let (k', r) := codecStep c w k
    let (k'', rs) := codecRun c ws k'
    (k'', r :: rs)

end Sys2Proof.Machine
end

