-- ==== Sys2Proof/Machine/HostText.lean ====
section
/-! DEFINITION. What the host sees and computes: the outputs (`10_state.md` rule R41), the hex text of the identifier
(`44_inventory_decoder.md` rule R150), the version text (`45_status_decoder.md` rule R164), byte runs (R166), and the
info length a host converts itself (`70_reset_and_hazards.md` rule R198). Pure functions; none is an operation. -/

namespace Sys2Proof.Machine

/-- The outputs, continuously visible to the host: `TX`, `TXVALID` and every register of `TR` (R41). -/
structure Outputs where
  tx : Vector Byte 16
  txValid : Bool
  tr : TagRecord
  deriving DecidableEq, Repr

/-- The outputs of a codec, sampled between operations (R41, R199). -/
def outputs (k : Codec) : Outputs := { tx := k.tx, txValid := k.txValid, tr := k.tr }

/-- `hexdigit(n)`, upper case (R150). -/
def hexDigit (n : Nat) : Char := "0123456789ABCDEF".toList.getD n '0'

/-- `hex2(b)`: two digits, high nibble first (R150). -/
def hex2 (b : Byte) : List Char := [hexDigit (b.toNat / 16), hexDigit (b.toNat % 16)]

/-- `renderHex(bytes, spaced)` as characters: one space between bytes when spaced (R150, decision D22). -/
def renderHexChars (spaced : Bool) : List Byte → List Char
  | [] => []
  | [b] => hex2 b
  | b :: rest => hex2 b ++ (if spaced then [' '] else []) ++ renderHexChars spaced rest

/-- `renderHex(bytes, spaced)` (R150). -/
def renderHex (bytes : List Byte) (spaced : Bool) : String := String.ofList (renderHexChars spaced bytes)

/-- The source's `epc` text: the hex of `TR.EPC[0..EPCLEN-1]` (R31, R150). -/
def epcText (tr : TagRecord) (spaced : Bool) : String := renderHex (tr.epc.toList.take tr.epclen.toNat) spaced

/-- The text of the three bytes at `off`, where they are in range: `VERSION_RENDER`, an open parameter (R164). -/
def versionText (c : Config) (k : Codec) (off : Byte) : Option String :=
  if off.toNat + 3 ≤ rxn k then
    some (c.versionRender (byteAt k.rx off.toNat) (byteAt k.rx (off.toNat + 1)) (byteAt k.rx (off.toNat + 2)))
  else none

/-- The operations that read a byte run: consecutive `RDB`, one per byte (R166). DESIGN CHOICE (log 12): R166 does not say what a
run past offset 255 reads, which no `RDB` can name (R80, R82), so there is no list of operations for one. -/
def byteRun (off n : Nat) : Option (List Instr) :=
  if off + n ≤ 256 then some ((List.range n).map fun i => .rdb (BitVec.ofNat 8 (off + i))) else none

/-- What a host does with an info length it read itself: `(value - 3) * 4` (R198, R77). -/
def infoLengthToBytes (value : Nat) : Int := ((value : Int) - 3) * 4

/-- The numeric value of each signed register of the record (R33, R36, R37). -/
def rssiValue (tr : TagRecord) : Int := sint tr.rssi

/-- See `rssiValue` (R36). -/
def tempValue (tr : TagRecord) : Int := sint tr.temp

/-- See `rssiValue` (R37). -/
def freqValue (tr : TagRecord) : Int := sint tr.freq

end Sys2Proof.Machine
end

