-- ==== Sys2Proof/Machine/Assembler.lean ====
section
/-! DEFINITION. The textual syntax of `30_encoding.md` rule R87 and the pseudo-operations of R88. A program text is the host's;
the codec sees only command words. The host runs a line by issuing the words of its expansion. -/

namespace Sys2Proof.Machine

/-! ### Pseudo-operations (R88) -/

/-- A line of a program: an operation, or one of the three pseudo-operations. -/
inductive AsmLine where
  | op (i : Instr)
  /-- `CMD opcode, b0, ..., bk-1`. -/
  | cmd (opcode : Byte) (params : List Byte)
  /-- `RXLOAD b0 b1 ... bn-1`. -/
  | rxload (bytes : List Byte)
  /-- `LOOPBACK`. -/
  | loopback
  /-- A line with nothing but a comment. -/
  | blank
  deriving DecidableEq, Repr

/-- `CMD`: `PBRST; PACKB b0; ...; PACKB bk-1; COMPOSE opcode` (R88). -/
def expandCmd (opcode : Byte) (params : List Byte) : List Instr :=
  .pbrst :: params.map .packb ++ [.compose opcode]

/-- `RXLOAD`: `RXCLR; RXPUSH b0; ...; RXPUSH bn-1` (R88). -/
def expandRxload (bytes : List Byte) : List Instr := .rxclr :: bytes.map .rxpush

/-- `LOOPBACK`: `RXLOAD` of the current values of the output `TX` (R88). -/
def expandLoopback (tx : Vector Byte 16) : List Instr := expandRxload tx.toList

/-- The operations of a line, given the output `TX` at that point (R88). -/
def expandLine (tx : Vector Byte 16) : AsmLine → List Instr
  | .op i => [i]
  | .cmd opcode params => expandCmd opcode params
  | .rxload bytes => expandRxload bytes
  | .loopback => expandLoopback tx
  | .blank => []

/-! ### Printing (R87) -/

/-- `n` as upper-case hexadecimal of exactly `digits` digits. -/
def hexDigits : Nat → Nat → List Char
  | 0, _ => []
  | digits + 1, n => hexDigits digits (n / 16) ++ [hexDigit (n % 16)]

/-- A number operand, `0x` and its hexadecimal digits (R87). -/
def hexOperand (digits n : Nat) : List Char := '0' :: 'x' :: hexDigits digits n

/-- `LE` or `BE` (R87). -/
def orderText (le : Bool) : List Char := if le then ['L', 'E'] else ['B', 'E']

/-- The operands of an operation, comma-separated (R87). -/
def operandText : Instr → List Char
  | .packb v | .compose v | .rxpush v | .rdb v | .rdver v => hexOperand 2 v.toNat
  | .packs v => hexOperand 4 v.toNat
  | .packi v => hexOperand 8 v.toNat
  | .rds off le | .rdi off le => hexOperand 2 off.toNat ++ [',', ' '] ++ orderText le
  | .pbrst | .rxclr | .classify | .opcodeof | .verify | .trclr | .decinv => []

/-- The line of an operation: the mnemonic, then its operands (R87). -/
def printLine (i : Instr) : List Char :=
  i.mnemonic.toList ++ (if operandText i = [] then [] else ' ' :: operandText i)

/-- The command word as 10 hex digits (R87). -/
def printWord (w : CmdWord) : List Char := hexDigits 10 w.toNat

/-- The name of a status (R170). -/
def statusName : Status → String
  | .ok => "OK" | .parameterOverflow => "ParameterOverflow" | .unknownFrameType => "UnknownFrameType"
  | .unknownOpcode => "UnknownOpcode" | .truncatedFrame => "TruncatedFrame" | .checksumMismatch => "ChecksumMismatch"
  | .crcInvalidFlag => "CrcInvalidFlag" | .wrongFrameFamily => "WrongFrameFamily" | .illegalOp => "IllegalOp"

/-- A line of a listing: the operation, its command word, then `-> status, data` (R87). -/
def listingLine (i : Instr) (r : Response) : List Char :=
  printLine i ++ [' '] ++ printWord (encode i) ++ [' ', '-', '>', ' '] ++ (statusName r.status).toList
    ++ [',', ' '] ++ hexOperand 8 r.data.toNat

/-! ### Reading (R87) -/

/-- The pieces of a text between occurrences of a character. -/
def splitAtChar (sep : Char) : List Char → List (List Char)
  | [] => [[]]
  | x :: xs =>
    if x = sep then [] :: splitAtChar sep xs
    else match splitAtChar sep xs with
      | [] => [[x]]
      | piece :: pieces => (x :: piece) :: pieces

/-- A text without spaces at either end. -/
def trimSpaces (t : List Char) : List Char :=
  ((t.dropWhile (· == ' ')).reverse.dropWhile (· == ' ')).reverse

/-- The value of a digit in base ten or sixteen; hexadecimal letters of either case (log 10). -/
def digitValue (base : Nat) (ch : Char) : Option Nat :=
  let n := ch.toNat
  let v :=
    if 48 ≤ n ∧ n ≤ 57 then n - 48
    else if 65 ≤ n ∧ n ≤ 70 then n - 55
    else if 97 ≤ n ∧ n ≤ 102 then n - 87
    else 99
  if v < base then some v else none

/-- The number of a non-empty digit sequence, most significant first. -/
def digitsValue (base acc : Nat) : List Char → Option Nat
  | [] => some acc
  | ch :: rest =>
    match digitValue base ch with
    | none => none
    | some v => digitsValue base (acc * base + v) rest

/-- A number: decimal, or `0x` hexadecimal (R87). -/
def parseNumber : List Char → Option Nat
  | '0' :: 'x' :: ch :: rest => digitsValue 16 0 (ch :: rest)
  | [] => none
  | ch :: rest => digitsValue 10 0 (ch :: rest)

/-- An operand of `n` bits; a value too wide cannot be expressed (R82). -/
def parseBits (n : Nat) (t : List Char) : Option (BitVec n) :=
  match parseNumber (trimSpaces t) with
  | none => none
  | some v => if v < 2 ^ n then some (BitVec.ofNat n v) else none

/-- A list of byte operands. -/
def parseBytes : List (List Char) → Option (List Byte)
  | [] => some []
  | t :: ts =>
    match parseBits 8 t, parseBytes ts with
    | some b, some bs => some (b :: bs)
    | _, _ => none

/-- `LE` or `BE` (R87). -/
def parseOrder (t : List Char) : Option Bool :=
  if trimSpaces t = ['L', 'E'] then some true
  else if trimSpaces t = ['B', 'E'] then some false
  else none

/-- Operands of an operation with an offset and a byte order. -/
def parseOffOrder (mk : Byte → Bool → Instr) : List (List Char) → Option AsmLine
  | [off, le] =>
    match parseBits 8 off, parseOrder le with
    | some o, some e => some (.op (mk o e))
    | _, _ => none
  | _ => none

/-- Operands of an operation with one value of `n` bits. -/
def parseOne (n : Nat) (mk : BitVec n → Instr) : List (List Char) → Option AsmLine
  | [t] => (parseBits n t).map fun v => .op (mk v)
  | _ => none

/-- An operation without operands. -/
def parseNone (l : AsmLine) (operands : List Char) : Option AsmLine := if operands = [] then some l else none

/-- The line with a given mnemonic and operand text (R87, R88). -/
def parseOperation (name operands : List Char) : Option AsmLine :=
  let args := splitAtChar ',' operands
  if name = "PBRST".toList then parseNone (.op .pbrst) operands
  else if name = "PACKB".toList then parseOne 8 .packb args
  else if name = "PACKS".toList then parseOne 16 .packs args
  else if name = "PACKI".toList then parseOne 32 .packi args
  else if name = "COMPOSE".toList then parseOne 8 .compose args
  else if name = "RXCLR".toList then parseNone (.op .rxclr) operands
  else if name = "RXPUSH".toList then parseOne 8 .rxpush args
  else if name = "CLASSIFY".toList then parseNone (.op .classify) operands
  else if name = "OPCODEOF".toList then parseNone (.op .opcodeof) operands
  else if name = "VERIFY".toList then parseNone (.op .verify) operands
  else if name = "TRCLR".toList then parseNone (.op .trclr) operands
  else if name = "DECINV".toList then parseNone (.op .decinv) operands
  else if name = "RDB".toList then parseOne 8 .rdb args
  else if name = "RDS".toList then parseOffOrder .rds args
  else if name = "RDI".toList then parseOffOrder .rdi args
  else if name = "RDVER".toList then parseOne 8 .rdver args
  else if name = "CMD".toList then
    match parseBytes args with
    | some (o :: ps) => some (.cmd o ps)
    | _ => none
  else if name = "RXLOAD".toList then
    (parseBytes ((splitAtChar ' ' operands).filter (· ≠ []))).map .rxload
  else if name = "LOOPBACK".toList then parseNone .loopback operands
  else none

/-- One line of a program: a comment runs from `;` to the end (R87). -/
def parseLine (line : List Char) : Option AsmLine :=
  let text := trimSpaces (line.takeWhile (· ≠ ';'))
  if text = [] then some .blank
  else parseOperation (text.takeWhile (· ≠ ' ')) (trimSpaces (text.dropWhile (· ≠ ' ')))

/-! ### Running lines -/

/-- A program of lines on a codec: each line's words in turn, `LOOPBACK` taking the outputs at that point (R88, R203). -/
def runLines (c : Config) : List AsmLine → Codec → Codec × List Response
  | [], k => (k, [])
  | l :: ls, k =>
    let (k', rs) := codecRun c ((expandLine (outputs k).tx l).map encode) k
    let (k'', rs') := runLines c ls k'
    (k'', rs ++ rs')

end Sys2Proof.Machine
end

