-- ==== Sys2Proof/Machine/Runs.lean ====
section
/-! DEFINITION. Several steps of one machine (`70_reset_and_hazards.md` rule R203), and two instances of the codec side by side
(`20_memory.md` rule R64, `60_exceptions.md` rule R186): they share nothing but the parameters, which are constants. Any number
of instances is two at a time. -/

namespace Sys2Proof.Machine

/-- `n` steps, one host event each, ending early only where a step stops (R203; no step of this machine does, R12). -/
def runSteps : Nat → State → Host.Outcome State Fault Refusal
  | 0, s => .next s
  | n + 1, s =>
    match step s with
    | .next t => runSteps n t
    | .fault r => .fault r
    | .refused r => .refused r

/-- Several operations issued in turn, ending early only where one stops (none does, R12, R171). -/
def runOps : List Instr → State → Host.Outcome State Fault Refusal
  | [], s => .next s
  | i :: rest, s =>
    match exec i s with
    | .next t => runOps rest t
    | .fault r => .fault r
    | .refused r => .refused r

/-- The next state of one instance. The step of a codec always gives one (R12); a machine that stopped would stay. -/
def nextState (s : State) : State :=
  match step s with
  | .next t => t
  | .fault _ | .refused _ => s

/-- `n` steps of one instance running alone. -/
def runAlone : Nat → State → State
  | 0, s => s
  | n + 1, s => runAlone n (nextState s)

/-- An interleaving of two instances: `true` is a step of the first, `false` a step of the second (R64). -/
def runPair : List Bool → State × State → State × State
  | [], p => p
  | true :: rest, p => runPair rest (nextState p.1, p.2)
  | false :: rest, p => runPair rest (p.1, nextState p.2)

end Sys2Proof.Machine
end

