-- ==== Sys2Proof/Safety.lean ====
section
/-! DEFINITION. What holds of the codec in every state reachable from reset, as the spec lists it, and the shape claims take. -/

namespace Sys2Proof.Machine

/-- The packer's registers: `PLEN` at most 8, `PB[i] = 0` from `PLEN` on (R21, R22), and `POVF` only with a full buffer
(R24: `POVF = 1` iff more than eight bytes were appended). -/
def PackerInv (k : Codec) : Prop :=
  k.plen.toNat ≤ 8 ∧ (∀ i, (h : i < 8) → k.plen.toNat ≤ i → k.pb[i] = 0) ∧ (k.povf = true → k.plen.toNat = 8)

/-- The receive buffer: `RXLEN` at most 65, `RX[i] = 0` from `RXN` on (R27). -/
def ReceiveInv (k : Codec) : Prop :=
  k.rxlen.toNat ≤ 65 ∧ ∀ i, (h : i < 64) → rxn k ≤ i → k.rx[i] = 0

/-- The tag record: the rules of R31 and R38. -/
def RecordInv (tr : TagRecord) : Prop :=
  (tr.portV = tr.phaseV ∧ tr.phaseV = tr.tempV ∧ tr.tempV = tr.freqV) ∧
  (tr.crcValid = false → tr.epclen = 0 ∧ tr.rssiV = false ∧ tr.portV = false) ∧
  (tr.epclen.toNat ≤ 48 ∧ tr.epclen.toNat % 4 = 0) ∧
  (∀ i, (h : i < 48) → tr.epclen.toNat ≤ i → tr.epc[i] = 0)

/-- The transmit buffer: all zero until the first success, and a composed frame from then on (R26, R42, R112). -/
def TransmitInv (c : Config) (k : Codec) : Prop :=
  (k.txValid = false → k.tx = Vector.replicate 16 0) ∧
  (k.txValid = true → ∃ opcode p, p.length ≤ 8 ∧ k.tx = composeFrame c opcode p)

/-- The invariant of the codec: what the spec says holds in every state reachable from reset. -/
def Inv (k : Codec) : Prop :=
  PackerInv k ∧ ReceiveInv k ∧ RecordInv k.tr ∧ TransmitInv hardware k

/-- Operation `i` at `s` is answered: `exec` gives the next state whose codec is `k`, with the response `(st, data)` added and
the host's other events as they were. Everything an operation does to the machine is in `k`, `st` and `data` (R12, R171). -/
def Answers (i : Instr) (s : State) (k : Codec) (st : Status) (data : Word) : Prop :=
  exec i s = .next { codec := k, pending := s.pending, rsps := s.rsps ++ [{ status := st, data := data }] }

/-- The receive buffer classifies as a frame of type `t`: its first byte is the type's tag and exactly the declared number
of bytes is stored (R73, R123). -/
def HoldsFrame (k : Codec) (t : FrameType) : Prop :=
  k.rx[0] = hardware.tag t ∧ k.rxlen.toNat = declaredLength t

/-- The receive buffer holds the composed frame and nothing else: what the host's `LOOPBACK` leaves (R88). -/
def LoopedBack (k : Codec) : Prop :=
  k.rxlen.toNat = 16 ∧ ∀ i, (h : i < 16) → k.rx[i] = k.tx[i]

/-- `k'` is `k` with the bytes `bs` appended to the parameter buffer: as many as fit are stored in order from `PLEN` on, the
rest are dropped and set `POVF`; nothing else of the codec differs (R21 to R23, R104). Written without the append operation. -/
def Appended (k k' : Codec) (bs : List Byte) : Prop :=
  k'.plen.toNat = min (k.plen.toNat + bs.length) 8 ∧
  (∀ i, (h : i < 8) → k'.pb[i] =
    if k.plen.toNat ≤ i ∧ i < k.plen.toNat + bs.length then bs.getD (i - k.plen.toNat) 0 else k.pb[i]) ∧
  k'.povf = (k.povf || decide (8 < k.plen.toNat + bs.length)) ∧
  k' = { k with pb := k'.pb, plen := k'.plen, povf := k'.povf }

/-- The bytes a pack operation appends, first byte first; `none` of an operation that is no pack (R101 to R103). Written without
the operation's own byte slicing. -/
def packOf : Instr → Option (List Byte)
  | .packb v => some [v]
  | .packs v => some [BitVec.ofNat 8 v.toNat, BitVec.ofNat 8 (v.toNat / 256)]
  | .packi v => some [BitVec.ofNat 8 v.toNat, BitVec.ofNat 8 (v.toNat / 2 ^ 8), BitVec.ofNat 8 (v.toNat / 2 ^ 16),
      BitVec.ofNat 8 (v.toNat / 2 ^ 24)]
  | .pbrst | .compose _ | .rxclr | .rxpush _ | .classify | .opcodeof | .verify | .trclr | .decinv | .rdb _
  | .rds _ _ | .rdi _ _ | .rdver _ => none

/-- `is` are pack operations, and `bs` are the bytes they append, in order. -/
def PacksInOrder (is : List Instr) (bs : List Byte) : Prop :=
  (∀ i ∈ is, (packOf i).isSome = true) ∧ bs = is.flatMap fun i => (packOf i).getD []

/-- An Inventory or Access frame is received: DECINV admits it (R142). -/
def Admitted (k : Codec) : Prop := HoldsFrame k .inventory ∨ HoldsFrame k .access

/-- Flags bit 0 is 0: the tag's response was valid (R75). -/
abbrev TagValid (k : Codec) : Prop := k.rx[7].getLsbD 0 = false

/-- The relative sequence says first frame (R74, R143). -/
abbrev FirstFrame (k : Codec) : Prop := k.rx[5].toNat ≤ 1

/-- Flags bits 1 and 3 are both 1: the telemetry block is present (R75). -/
abbrev HasTelemetry (k : Codec) : Prop := k.rx[7].getLsbD 1 = true ∧ k.rx[7].getLsbD 3 = true

/-- The info length as a number (R77). -/
def infoLen (k : Codec) : Nat := k.rx[10].toNat + 256 * k.rx[11].toNat

/-- The accepted info lengths, in the numbers of R146. -/
def AcceptedLength (k : Codec) : Prop :=
  (if HasTelemetry k then 6 else 4) ≤ infoLen k ∧ infoLen k ≤ (if FirstFrame k then 13 else 16)

end Sys2Proof.Machine
end

