-- ==== Sys2Proof/Certificates/Slice0/Obligations.lean ====
section
/-! DEFINITION. The statements for the provers. Each docstring names the rule of the spec it formalises. `D<n>` is a decision of
`92_eei_decisions.md`: the spec's own choice, which the statement then rests on (log 11). -/

open Sys2Proof Sys2Proof.Machine

/-! ### Encoding -/

/-- The command words of the spec's listings decode to the operations they stand for, one or more of each family
(R80, the words of `95_test_vectors.md`; D2, D3). -/
def Obligations.ListedWordsDecode : Prop :=
  decode 0x00FFFFFFFF = .ok .pbrst ∧
  decode 0x01ABCDEF12 = .ok (.packb 0x12) ∧
  decode 0x0200003456 = .ok (.packs 0x3456) ∧
  decode 0x0389ABCDEF = .ok (.packi 0x89ABCDEF) ∧
  decode 0x04ABCDEF8A = .ok (.compose 0x8A) ∧
  decode 0x0600000043 = .ok (.rxpush 0x43) ∧
  decode 0x0700000000 = .ok .classify ∧
  decode 0x0800000000 = .ok .opcodeof ∧
  decode 0x0BFFFFFFFF = .ok .decinv ∧
  decode 0x0C000000FF = .ok (.rdb 255) ∧
  decode 0x0D00000109 = .ok (.rds 9 true) ∧
  decode 0x0D00000009 = .ok (.rds 9 false) ∧
  decode 0x0E0000010B = .ok (.rdi 11 true) ∧
  decode 0x1012345678 = .error (.illegalOp 0x10)

/-- Decoding reads the table of R80: `op = cmd[39:32]` selects the operation and each operand is the named slice of
`arg`, whatever the other bits (R82, R84); `op` 0x10 to 0xFF selects none (R83). Rests on D2, D3, D6, D27. -/
def Obligations.DecodeReadsTheOperationTable : Prop :=
  ∀ (w : CmdWord) (op arg : Nat), w.toNat = op * 2 ^ 32 + arg → arg < 2 ^ 32 →
    (op = 0x00 → decode w = .ok .pbrst) ∧
    (op = 0x01 → decode w = .ok (.packb (BitVec.ofNat 8 arg))) ∧
    (op = 0x02 → decode w = .ok (.packs (BitVec.ofNat 16 arg))) ∧
    (op = 0x03 → decode w = .ok (.packi (BitVec.ofNat 32 arg))) ∧
    (op = 0x04 → decode w = .ok (.compose (BitVec.ofNat 8 arg))) ∧
    (op = 0x05 → decode w = .ok .rxclr) ∧
    (op = 0x06 → decode w = .ok (.rxpush (BitVec.ofNat 8 arg))) ∧
    (op = 0x07 → decode w = .ok .classify) ∧
    (op = 0x08 → decode w = .ok .opcodeof) ∧
    (op = 0x09 → decode w = .ok .verify) ∧
    (op = 0x0A → decode w = .ok .trclr) ∧
    (op = 0x0B → decode w = .ok .decinv) ∧
    (op = 0x0C → decode w = .ok (.rdb (BitVec.ofNat 8 arg))) ∧
    (op = 0x0D → decode w = .ok (.rds (BitVec.ofNat 8 arg) (decide (arg / 256 % 2 = 1)))) ∧
    (op = 0x0E → decode w = .ok (.rdi (BitVec.ofNat 8 arg) (decide (arg / 256 % 2 = 1)))) ∧
    (op = 0x0F → decode w = .ok (.rdver (BitVec.ofNat 8 arg))) ∧
    (0x10 ≤ op → decode w = .error (.illegalOp (BitVec.ofNat 8 op)))

/-- Decoding the word of any operation gives it back, with every operand at every value (R80, R82; D2, D3). -/
def Obligations.DecodeOfEncodeIsTheInstruction : Prop :=
  ∀ i : Instr, i.wellFormed = true → decode (encode i) = .ok i

/-- Every word that is written as listings write words (a defined `op`, unused bits 0) is the word of the operation it
decodes to: no bit of it is dropped (R80, R87; D2, D3). -/
def Obligations.EncodeOfDecodeIsTheWord : Prop :=
  ∀ w : CmdWord, w.canonical = true → ∃ i, decode w = .ok i ∧ encode i = w

/-- Argument bits an operation does not name do not change what it decodes to (R84; D27). -/
def Obligations.UnnamedArgumentBitsAreIgnored : Prop :=
  ∀ w w' : CmdWord, w.toNat / 2 ^ 32 = w'.toNat / 2 ^ 32 →
    w.toNat % 2 ^ usedArgBits (w.toNat / 2 ^ 32) = w'.toNat % 2 ^ usedArgBits (w.toNat / 2 ^ 32) →
    decode w = decode w'

/-- The response word carries the status code in bits 35 to 32 and the data below, and the nine codes are 0 to 8
(R81, R170; D1, D4). -/
def Obligations.ResponseWordLayout : Prop :=
  (∀ r : Response, (responseWord r).toNat = (statusCode r.status).toNat * 2 ^ 32 + r.data.toNat) ∧
  [Status.ok, .parameterOverflow, .unknownFrameType, .unknownOpcode, .truncatedFrame, .checksumMismatch,
    .crcInvalidFlag, .wrongFrameFamily, .illegalOp].map statusCode = [0, 1, 2, 3, 4, 5, 6, 7, 8]

/-! ### The step -/

/-- A step with a command word at the head of the host's events that decodes to a well-formed operation is that operation's
`exec`, with the word taken from the port (R12, R59, R80; that words stand in `pending` is the model's choice, log 1). -/
def Obligations.StepRunsTheDecodedInstruction : Prop :=
  ∀ (s : State) (w : CmdWord) (rest : List HostInput) (i : Instr),
    s.pending = .command w :: rest → decode w = .ok i → i.wellFormed = true →
    step s = exec i { codec := s.codec, pending := rest, rsps := s.rsps }

/-- A reserved operation code is answered `IllegalOp` with data 0 and changes no state (R83; D6). -/
def Obligations.ReservedOperationAnswersIllegalOp : Prop :=
  ∀ (s : State) (w : CmdWord) (rest : List HostInput),
    s.pending = .command w :: rest → 0x10 ≤ w.toNat / 2 ^ 32 →
    step s = .next { codec := s.codec, pending := rest, rsps := s.rsps ++ [{ status := .illegalOp, data := 0 }] }

/-- A reset event gives the reset state and no response (R190, R191; D25); with no event the step leaves the machine as it is:
that idling is the model's choice (log 3). -/
def Obligations.ResetEventAndIdleStep : Prop :=
  (∀ (s : State) (rest : List HostInput), s.pending = .reset :: rest →
    step s = .next { codec := State.reset.codec, pending := rest, rsps := s.rsps }) ∧
  (∀ s : State, s.pending = [] → step s = .next s)

/-- "The step function is total and deterministic": for every state and every 40-bit command word exactly one pair of a next
codec state and a response is what the step gives (R12). -/
def Obligations.ExactlyOneNextStateAndResponse : Prop :=
  ∀ (s : State) (w : CmdWord) (rest : List HostInput), s.pending = .command w :: rest →
    ∃! p : Codec × Response,
      step s = .next { codec := p.1, pending := rest, rsps := s.rsps ++ [p.2] }

/-- A run of the machine over the host's command words is R203's run: the words applied left to right by the codec's function of
R12, their responses in order, and the final state (D1; the lists in `State` are the model's, logs 1 and 2). -/
def Obligations.MachineRunIsTheListOfCommandWordsApplied : Prop :=
  ∀ (ws : List CmdWord) (s : State) (rest : List HostInput),
    s.pending = ws.map HostInput.command ++ rest →
    runSteps ws.length s =
      .next { codec := (codecRun hardware ws s.codec).1, pending := rest,
              rsps := s.rsps ++ (codecRun hardware ws s.codec).2 }

/-- Two instances share nothing (R64). What a step makes of a command word, the next codec and the response, is one pair for every
machine with that codec, whatever else waits at its port and whatever it has answered before. And under any interleaving of the
operations of two instances each ends with the states and responses of its own list of command words run alone. -/
def Obligations.InstancesShareNothing : Prop :=
  (∀ (k : Codec) (w : CmdWord), ∃ p : Codec × Response, ∀ (s : State) (rest : List HostInput),
    s.codec = k → s.pending = .command w :: rest →
    step s = .next { codec := p.1, pending := rest, rsps := s.rsps ++ [p.2] }) ∧
  (∀ (schedule : List Bool) (a b : State) (wa wb : List CmdWord),
    a.pending = wa.map HostInput.command → b.pending = wb.map HostInput.command →
    schedule.count true = wa.length → schedule.count false = wb.length →
    runPair schedule (a, b) =
      ({ codec := (codecRun hardware wa a.codec).1, pending := [], rsps := a.rsps ++ (codecRun hardware wa a.codec).2 },
       { codec := (codecRun hardware wb b.codec).1, pending := [], rsps := b.rsps ++ (codecRun hardware wb b.codec).2 }))

/-! ### Reset -/

/-- Every register and buffer after reset, as R42 lists it (D25), and an empty port and response list (the model's choice, logs
1 and 2). -/
def Obligations.ResetValues : Prop :=
  (∀ i, (h : i < 8) → State.reset.codec.pb[i] = 0) ∧ State.reset.codec.plen = 0 ∧ State.reset.codec.povf = false ∧
  (∀ i, (h : i < 16) → State.reset.codec.tx[i] = 0) ∧ State.reset.codec.txValid = false ∧
  (∀ i, (h : i < 64) → State.reset.codec.rx[i] = 0) ∧ State.reset.codec.rxlen = 0 ∧
  (∀ i, (h : i < 48) → State.reset.codec.tr.epc[i] = 0) ∧ State.reset.codec.tr.epclen = 0 ∧
  State.reset.codec.tr.crcValid = false ∧
  State.reset.codec.tr.rssi = 0 ∧ State.reset.codec.tr.rssiV = false ∧
  State.reset.codec.tr.port = 0 ∧ State.reset.codec.tr.portV = false ∧
  State.reset.codec.tr.phase = 0 ∧ State.reset.codec.tr.phaseV = false ∧
  State.reset.codec.tr.temp = 0 ∧ State.reset.codec.tr.tempV = false ∧
  State.reset.codec.tr.freq = 0 ∧ State.reset.codec.tr.freqV = false ∧
  State.reset.pending = [] ∧ State.reset.rsps = []

/-- The state after reset equals the state after `PBRST; RXCLR; TRCLR` applied to any state, except that reset also zeroes `TX`
and `TXVALID` (R190; D25). -/
def Obligations.ResetEqualsTheThreeClears : Prop :=
  ∀ s : State, ∃ a b c : State,
    exec .pbrst s = .next a ∧ exec .rxclr a = .next b ∧ exec .trclr b = .next c ∧
    c.codec = { State.reset.codec with tx := s.codec.tx, txValid := s.codec.txValid }

/-- The invariant holds after reset (R42, R38; D25). -/
def Obligations.ResetMeetsTheInvariant : Prop := Inv State.reset.codec

/-- Every step keeps the invariant: the ranges of the three lengths, the zeros beyond them, the relations among the record's
valid bits, and what `TX` holds (R21, R22, R24, R26, R27, R31, R38, which the spec derives). From every state that meets it,
reached or not. -/
def Obligations.StepKeepsTheInvariant : Prop :=
  ∀ s t : State, Inv s.codec → step s = .next t → Inv t.codec

/-! ### ParameterPacker -/

/-- `PBRST`: all of `PB` zero, `PLEN` and `POVF` zero, always `OK`, nothing else changes (R100; D8). -/
def Obligations.PbrstEmptiesTheParameterBuffer : Prop :=
  ∀ s : State, ∃ pb : Vector Byte 8, (∀ i, (h : i < 8) → pb[i] = 0) ∧
    Answers .pbrst s { s.codec with pb := pb, plen := 0, povf := false } .ok 0

/-- `PACKB v` (R101): `op = 0x01`, `v = arg[7:0]`; from any `PLEN` of its range the byte is stored at `PB[PLEN]` and counted, or
at `PLEN = 8` dropped with `POVF` set; always `OK`; nothing else changes. -/
def Obligations.PackbAppendsOneByte : Prop :=
  (∀ w : CmdWord, w.toNat / 2 ^ 32 = 0x01 → decode w = .ok (.packb (BitVec.ofNat 8 (w.toNat % 256)))) ∧
  ∀ (s : State) (v : Byte), s.codec.plen.toNat ≤ 8 →
    ∃ k, Answers (.packb v) s k .ok 0 ∧ Appended s.codec k [v]

/-- `PACKS v` (R102): `op = 0x02`, `v = arg[15:0]`; the low byte is appended first, then the high byte, each stored or dropped as
`PLEN` allows; always `OK`; nothing else changes. -/
def Obligations.PacksAppendsTwoBytesLittleEndian : Prop :=
  (∀ w : CmdWord, w.toNat / 2 ^ 32 = 0x02 → decode w = .ok (.packs (BitVec.ofNat 16 (w.toNat % 2 ^ 16)))) ∧
  ∀ (s : State) (v : Half), s.codec.plen.toNat ≤ 8 →
    ∃ k, Answers (.packs v) s k .ok 0 ∧
      Appended s.codec k [BitVec.ofNat 8 v.toNat, BitVec.ofNat 8 (v.toNat / 256)]

/-- `PACKI v` (R103): `op = 0x03`, `v = arg[31:0]`; the four bytes are appended least significant first, each stored or dropped as
`PLEN` allows, in one step; always `OK`; nothing else changes. -/
def Obligations.PackiAppendsFourBytesLittleEndian : Prop :=
  (∀ w : CmdWord, w.toNat / 2 ^ 32 = 0x03 → decode w = .ok (.packi (BitVec.ofNat 32 (w.toNat % 2 ^ 32)))) ∧
  ∀ (s : State) (v : Word), s.codec.plen.toNat ≤ 8 →
    ∃ k, Answers (.packi v) s k .ok 0 ∧
      Appended s.codec k [BitVec.ofNat 8 v.toNat, BitVec.ofNat 8 (v.toNat / 2 ^ 8),
        BitVec.ofNat 8 (v.toNat / 2 ^ 16), BitVec.ofNat 8 (v.toNat / 2 ^ 24)]

/-- The packer's registers stand for the source's unbounded byte sequence `P`: it is empty after `PBRST`, each pack operation
extends it by the value's bytes, and `COMPOSE` sees of it only `len(P) > 8` and its first eight bytes (R24, which the spec
derives; D7). -/
def Obligations.PackerRefinesTheUnboundedSequence : Prop :=
  (∀ s : State, ∃ k, Answers .pbrst s k .ok 0 ∧ StandsFor k []) ∧
  (∀ (s : State) (p : List Byte), StandsFor s.codec p →
    (∀ v : Byte, ∃ k, Answers (.packb v) s k .ok 0 ∧ StandsFor k (p ++ [v])) ∧
    (∀ v : Half, ∃ k, Answers (.packs v) s k .ok 0 ∧
      StandsFor k (p ++ [BitVec.ofNat 8 v.toNat, BitVec.ofNat 8 (v.toNat / 256)])) ∧
    (∀ v : Word, ∃ k, Answers (.packi v) s k .ok 0 ∧
      StandsFor k (p ++ [BitVec.ofNat 8 v.toNat, BitVec.ofNat 8 (v.toNat / 2 ^ 8),
        BitVec.ofNat 8 (v.toNat / 2 ^ 16), BitVec.ofNat 8 (v.toNat / 2 ^ 24)])) ∧
    (∀ o : Byte, 8 < p.length → Answers (.compose o) s s.codec .parameterOverflow 0) ∧
    (∀ o : Byte, p.length ≤ 8 →
      Answers (.compose o) s { s.codec with tx := composeFrame hardware o p, txValid := true } .ok 0))

/-- `PACKS v` leaves the codec that `PACKB v[7:0]; PACKB v[15:8]` leaves, and `PACKI v` the codec that `PACKS v[15:0];
PACKS v[31:16]` leaves (R53, R88, which the spec derives). -/
def Obligations.WiderPacksAreNarrowerPacksInOrder : Prop :=
  (∀ (s : State) (v : Half), ∃ a b c : State, exec (.packs v) s = .next a ∧
    exec (.packb (BitVec.ofNat 8 v.toNat)) s = .next b ∧
    exec (.packb (BitVec.ofNat 8 (v.toNat / 256))) b = .next c ∧ a.codec = c.codec) ∧
  (∀ (s : State) (v : Word), ∃ a b c : State, exec (.packi v) s = .next a ∧
    exec (.packs (BitVec.ofNat 16 v.toNat)) s = .next b ∧
    exec (.packs (BitVec.ofNat 16 (v.toNat / 2 ^ 16))) b = .next c ∧ a.codec = c.codec)

/-! ### FrameCodec -/

/-- The pure function `compose(opcode, p)` for at most eight parameter bytes (R111), and its checksum (R71): magic, 0xFF, opcode,
the parameters then zeros, and the complement of the checksum over exactly bytes 0 to 13, little-endian. -/
def Obligations.ComposedFrameLayoutAndChecksum : Prop :=
  ∀ (opcode : Byte) (p : List Byte), p.length ≤ 8 →
    (∀ i, (h : i < 4) → (composeFrame hardware opcode p)[i] = hardware.magic[i]) ∧
    (composeFrame hardware opcode p)[4] = 0xFF ∧
    (composeFrame hardware opcode p)[5] = opcode ∧
    (∀ i, (h : i < 8) → (composeFrame hardware opcode p)[6 + i] = if h' : i < p.length then p[i] else 0) ∧
    (composeFrame hardware opcode p)[14].toNat + 256 * (composeFrame hardware opcode p)[15].toNat =
      0xFFFF - (hardware.crc16 ((composeFrame hardware opcode p).toList.take 14)).toNat

/-- `COMPOSE opcode` with `POVF = 0`: for every opcode the frame of the packed bytes is written to `TX`, `TXVALID` becomes 1, `OK`;
nothing else changes (R110, R114; D8, D10, D30). -/
def Obligations.ComposeWritesTheFrame : Prop :=
  ∀ (s : State) (opcode : Byte), s.codec.povf = false → s.codec.plen.toNat ≤ 8 →
    ∃ tx : Vector Byte 16,
      Answers (.compose opcode) s { s.codec with tx := tx, txValid := true } .ok 0 ∧
      (∀ i, (h : i < 4) → tx[i] = hardware.magic[i]) ∧ tx[4] = 0xFF ∧ tx[5] = opcode ∧
      (∀ i, (h : i < 8) → tx[6 + i] = if i < s.codec.plen.toNat then s.codec.pb[i] else 0) ∧
      tx[14].toNat + 256 * tx[15].toNat = 0xFFFF - (hardware.crc16 (tx.toList.take 14)).toNat

/-- `COMPOSE` with `POVF = 1` answers `ParameterOverflow`, data 0, and writes nothing: `TX` and `TXVALID` keep the previous
frame (R110, R200; D7, D10). -/
def Obligations.ComposeRejectsMoreThanEightBytes : Prop :=
  ∀ (s : State) (opcode : Byte), s.codec.povf = true →
    Answers (.compose opcode) s s.codec .parameterOverflow 0

/-- H-PBRST (R193). `COMPOSE` does not clear `PB`. Parameters packed after it without `PBRST`, by any packs in any number, are appended
after the previous command's: the next `COMPOSE` carries the old bytes first and the new ones after them, or fails with
`ParameterOverflow` once the total passes eight. After a `ParameterOverflow` no run of operations without a `PBRST` makes `COMPOSE`
succeed again; `PBRST` does, and the reset event does. -/
def Obligations.OnlyPbrstRecoversTheParameterBuffer : Prop :=
  (∀ (s : State) (o : Byte) (t : State), exec (.compose o) s = .next t →
    t.codec.pb = s.codec.pb ∧ t.codec.plen = s.codec.plen ∧ t.codec.povf = s.codec.povf) ∧
  (∀ (s : State) (old new : List Byte) (is : List Instr) (o o' : Byte), StandsFor s.codec old → PacksInOrder is new →
    ∃ t u : State, exec (.compose o) s = .next t ∧ runOps is t = .next u ∧
      ((old ++ new).length ≤ 8 →
        ∃ tx : Vector Byte 16, Answers (.compose o') u { u.codec with tx := tx, txValid := true } .ok 0 ∧ tx[5] = o' ∧
          (∀ i, (h : i < old.length) → tx[6 + i]? = some old[i]) ∧
          (∀ i, (h : i < new.length) → tx[6 + old.length + i]? = some new[i])) ∧
      (8 < (old ++ new).length → Answers (.compose o') u u.codec .parameterOverflow 0)) ∧
  (∀ (s t : State) (is : List Instr) (o o' : Byte), Answers (.compose o) s s.codec .parameterOverflow 0 →
    .pbrst ∉ is → runOps is s = .next t → Answers (.compose o') t t.codec .parameterOverflow 0) ∧
  (∀ (s : State) (o : Byte), ∃ t : State, exec .pbrst s = .next t ∧
    ∃ tx : Vector Byte 16, Answers (.compose o) t { t.codec with tx := tx, txValid := true } .ok 0) ∧
  (∀ (s : State) (rest : List HostInput) (o : Byte), s.pending = .reset :: rest → ∃ t : State, step s = .next t ∧
    ∃ tx : Vector Byte 16, Answers (.compose o) t { t.codec with tx := tx, txValid := true } .ok 0)

/-- `VERIFY` on a received Command frame: the stored trailer is bytes 14 and 15 little-endian, the expected one the complement of
the checksum over bytes 0 to 13; equal is `OK`, different is `ChecksumMismatch`; both are returned; no state changes
(R113; D14). -/
def Obligations.VerifyComparesTheTrailers : Prop :=
  ∀ s : State, HoldsFrame s.codec .command →
    ∃ d : Word,
      d.toNat = (0xFFFF - (hardware.crc16 (s.codec.rx.toList.take 14)).toNat) * 2 ^ 16 +
        (s.codec.rx[14].toNat + 256 * s.codec.rx[15].toNat) ∧
      (d.toNat / 2 ^ 16 = d.toNat % 2 ^ 16 → Answers .verify s s.codec .ok d) ∧
      (d.toNat / 2 ^ 16 ≠ d.toNat % 2 ^ 16 → Answers .verify s s.codec .checksumMismatch d)

/-- The round trip of R112: a frame composed from any state with at most eight packed bytes, looped back into the receive buffer of
any state, classifies as Command of length 16, gives back its opcode byte (status by `OPCODE_TABLE`), and passes `VERIFY`
(the last is the spec's derivation; `VERIFY` is D14). That it classifies rests on `MAGIC[0] = TAG_COMMAND` and distinct tags (R6,
log 4). -/
def Obligations.ComposedFrameSurvivesTheRoundTrip : Prop :=
  ∀ (s : State) (o : Byte), s.codec.povf = false →
    ∃ t : State, exec (.compose o) s = .next t ∧
      ∀ u : State, u.codec.tx = t.codec.tx → LoopedBack u.codec →
        Answers .classify u u.codec .ok 0x00001000 ∧
        (∃ d : Word, d.toNat = o.toNat ∧
          Answers .opcodeof u u.codec (if (hardware.opcodeTable o).isSome then .ok else .unknownOpcode) d) ∧
        (∃ d : Word, Answers .verify u u.codec .ok d)

/-- The source's round trip in operations (`95_test_vectors.md` S1): for every opcode, every list of at most eight parameter bytes
and from any state, `CMD o, p; LOOPBACK; CLASSIFY; OPCODEOF; VERIFY` answers `OK` to every packing and loading operation, then
Command of length 16, the opcode byte, and `OK` (R88, R112; D2, D14; R6's constraints on the tags, log 4). -/
def Obligations.RoundTripThroughTheCommandPort : Prop :=
  ∀ (k : Codec) (o : Byte) (p : List Byte), p.length ≤ 8 →
    ∃ (rs : List Response) (d : Word),
      (runLines hardware [.cmd o p, .loopback, .op .classify, .op .opcodeof, .op .verify] k).2 =
        rs ++ [⟨.ok, 0x00001000⟩,
          ⟨if (hardware.opcodeTable o).isSome then .ok else .unknownOpcode, BitVec.ofNat 32 o.toNat⟩, ⟨.ok, d⟩] ∧
      (∀ r ∈ rs, r = ⟨.ok, 0⟩) ∧ rs.length = p.length + 19

/-! ### Receive buffer, classifier, opcode resolution -/

/-- `RXCLR`: all of `RX` zero, `RXLEN` zero, always `OK`, nothing else changes (R120; D11). -/
def Obligations.RxclrEmptiesTheReceiveBuffer : Prop :=
  ∀ s : State, ∃ rx : Vector Byte 64, (∀ i, (h : i < 64) → rx[i] = 0) ∧
    Answers .rxclr s { s.codec with rx := rx, rxlen := 0 } .ok 0

/-- `RXPUSH b`: the byte is stored at `RX[RXLEN]` while fewer than 64 are stored, every other byte stays; `RXLEN` counts up and
stays at 65 from the 65th byte on; always `OK`; nothing else changes (R121; D11). -/
def Obligations.RxpushAppendsOneByte : Prop :=
  ∀ (s : State) (b : Byte), s.codec.rxlen.toNat ≤ 65 →
    ∃ (rx : Vector Byte 64) (n : BitVec 7),
      Answers (.rxpush b) s { s.codec with rx := rx, rxlen := n } .ok 0 ∧
      n.toNat = min (s.codec.rxlen.toNat + 1) 65 ∧
      ∀ i, (h : i < 64) → rx[i] = if i = s.codec.rxlen.toNat then b else s.codec.rx[i]

/-- The frame types of R73: declared lengths, type codes (D5), and that no two types share a tag byte, `MAGIC[0]` being the
Command tag (R6, the spec's derivation, log 4). -/
def Obligations.FrameTypeTable : Prop :=
  FrameType.all.map declaredLength = [16, 16, 24, 64, 64, 24, 24] ∧
  FrameType.all.map typeCode = [0, 1, 2, 3, 4, 5, 6] ∧
  (∀ t : FrameType, t ∈ FrameType.all) ∧
  (∀ t u : FrameType, hardware.tag t = hardware.tag u → t = u) ∧
  hardware.magic[0] = hardware.tag .command

/-- `CLASSIFY` (R122): `op = 0x07`; a buffer that holds a frame of a type answers `OK` with the type's word; an empty buffer or a
known tag with another length answers `TruncatedFrame`, an unknown tag `UnknownFrameType` (these refusals and
their order are R123's, D12); no state changes in any outcome. The type codes are D5's, and that a frame of a type has one type only
rests on R6's derived constraint (log 4). -/
def Obligations.ClassifyAnswersTypeAndLength : Prop :=
  (∀ w : CmdWord, w.toNat / 2 ^ 32 = 0x07 → decode w = .ok .classify) ∧
  ∀ s : State,
    (HoldsFrame s.codec .command → Answers .classify s s.codec .ok 0x00001000) ∧
    (HoldsFrame s.codec .response → Answers .classify s s.codec .ok 0x00001001) ∧
    (HoldsFrame s.codec .beginFrame → Answers .classify s s.codec .ok 0x00001802) ∧
    (HoldsFrame s.codec .inventory → Answers .classify s s.codec .ok 0x00004003) ∧
    (HoldsFrame s.codec .access → Answers .classify s s.codec .ok 0x00004004) ∧
    (HoldsFrame s.codec .endFrame → Answers .classify s s.codec .ok 0x00001805) ∧
    (HoldsFrame s.codec .work → Answers .classify s s.codec .ok 0x00001806) ∧
    (s.codec.rxlen = 0 → Answers .classify s s.codec .truncatedFrame 0) ∧
    (s.codec.rxlen ≠ 0 → (∀ t, hardware.tag t ≠ s.codec.rx[0]) → Answers .classify s s.codec .unknownFrameType 0) ∧
    (∀ t, hardware.tag t = s.codec.rx[0] → s.codec.rxlen.toNat ≠ declaredLength t →
      Answers .classify s s.codec .truncatedFrame 0)

/-- `VERIFY` and `DECINV` classify first and fail as `CLASSIFY` fails, then refuse a well-formed frame of a type they do not take
with `WrongFrameFamily`; nothing changes (R113, R142, R174; D6, D12, D14, D15). -/
def Obligations.VerifyAndDecinvAdmission : Prop :=
  ∀ (s : State) (i : Instr), i = .verify ∨ i = .decinv →
    (s.codec.rxlen = 0 → Answers i s s.codec .truncatedFrame 0) ∧
    (s.codec.rxlen ≠ 0 → (∀ t, hardware.tag t ≠ s.codec.rx[0]) → Answers i s s.codec .unknownFrameType 0) ∧
    (∀ t, hardware.tag t = s.codec.rx[0] → s.codec.rxlen.toNat ≠ declaredLength t →
      Answers i s s.codec .truncatedFrame 0) ∧
    (∀ t, HoldsFrame s.codec t → (i = .verify → t ≠ .command) → (i = .decinv → t ≠ .inventory ∧ t ≠ .access) →
      Answers i s s.codec .wrongFrameFamily 0)

/-- H-RXCLR (R194, which the spec derives): a frame that classifies, with one more byte pushed and no `RXCLR`, makes `CLASSIFY`,
`VERIFY` and `DECINV` answer `TruncatedFrame`. -/
def Obligations.PushWithoutRxclrTruncatesTheNextFrame : Prop :=
  ∀ (s : State) (t : FrameType) (b : Byte), HoldsFrame s.codec t →
    ∃ u : State, exec (.rxpush b) s = .next u ∧ u.codec.rx[0] = s.codec.rx[0] ∧
      ∀ i : Instr, i = .classify ∨ i = .verify ∨ i = .decinv → Answers i u u.codec .truncatedFrame 0

/-- `OPCODEOF`: with six or more bytes stored, of any frame, the byte at offset 5 is the unsigned index of `OPCODE_TABLE` and is
returned with `OK` for a defined entry, whose command is the symbolic result, and with `UnknownOpcode` for a reserved one; with
fewer, `TruncatedFrame`; no state changes (R130; D13). -/
def Obligations.OpcodeofResolvesTheUnsignedByte : Prop :=
  ∀ s : State,
    (s.codec.rxlen.toNat < 6 → Answers .opcodeof s s.codec .truncatedFrame 0) ∧
    (6 ≤ s.codec.rxlen.toNat →
      (∀ cmd, hardware.opcodeTable s.codec.rx[5] = some cmd →
        Answers .opcodeof s s.codec .ok (BitVec.ofNat 32 s.codec.rx[5].toNat) ∧
        symbolicOpcode hardware s.codec = some (s.codec.rx[5].toNat, cmd)) ∧
      (hardware.opcodeTable s.codec.rx[5] = none →
        Answers .opcodeof s s.codec .unknownOpcode (BitVec.ofNat 32 s.codec.rx[5].toNat) ∧
        symbolicOpcode hardware s.codec = none))

/-! ### InventoryResponseDecoder -/

/-- `TRCLR`: every register of the tag record zero and absent, always `OK`, nothing else changes (R140; D25). -/
def Obligations.TrclrEmptiesTheRecord : Prop :=
  ∀ s : State, ∃ tr : TagRecord, Answers .trclr s { s.codec with tr := tr } .ok 0 ∧
    (∀ i, (h : i < 48) → tr.epc[i] = 0) ∧ tr.epclen = 0 ∧ tr.crcValid = false ∧
    tr.rssi = 0 ∧ tr.rssiV = false ∧ tr.port = 0 ∧ tr.portV = false ∧ tr.phase = 0 ∧ tr.phaseV = false ∧
    tr.temp = 0 ∧ tr.tempV = false ∧ tr.freq = 0 ∧ tr.freqV = false

/-- The length arithmetic of R144, on mathematical integers: the info length, the extra bytes, the identifier length, their ranges,
and that the identifier length is a multiple of 4 before and after the telemetry adjustment. -/
def Obligations.InfoLengthArithmetic : Prop :=
  ∀ k : Codec,
    (infoLength k.rx : Int) = k.rx[10].toNat + 256 * k.rx[11].toNat ∧ infoLength k.rx ≤ 65535 ∧
    extraBytes k.rx = ((infoLength k.rx : Int) - 3) * 4 ∧ -12 ≤ extraBytes k.rx ∧ extraBytes k.rx ≤ 262128 ∧
    idLength k.rx = 4 * (infoLength k.rx : Int) - 16 - (if HasTelemetry k then 8 else 0) ∧
    (extraBytes k.rx - 4) % 4 = 0 ∧ idLength k.rx % 4 = 0

/-- A frame with flags bit 0 set is discarded with `CrcInvalidFlag`, data 0, nothing modified, whatever its lengths and its other
bits: the test comes before every length test, and the status is no error (R142, R173; D33). -/
def Obligations.CrcFlaggedFrameIsDiscardedSilently : Prop :=
  ∀ s : State, Admitted s.codec → s.codec.rx[7].getLsbD 0 = true →
    Answers .decinv s s.codec .crcInvalidFlag 0 ∧ isError .crcInvalidFlag = false

/-- `DECINV` on an admitted, valid frame of an accepted length completes: `CRCVALID` is set, the identifier is the bytes at 28 or 16,
8 later and 8 fewer with telemetry, the rest of the identifier register is zero, only the record changes, and the data says
length, first and telemetry (R141, R144, R146, R147; D16, D17, D18). -/
def Obligations.DecinvExtractsTheIdentifier : Prop :=
  ∀ s : State, Admitted s.codec → TagValid s.codec → AcceptedLength s.codec →
    ∃ (k : Codec) (d : Word), Answers .decinv s k .ok d ∧ k = { s.codec with tr := k.tr } ∧
      k.tr.crcValid = true ∧
      k.tr.epclen.toNat + 16 + (if HasTelemetry s.codec then 8 else 0) = 4 * infoLen s.codec ∧
      (∀ i, (h : i < 48) → i < k.tr.epclen.toNat →
        s.codec.rx[(if FirstFrame s.codec then 28 else 16) + (if HasTelemetry s.codec then 8 else 0) + i]?
          = some k.tr.epc[i]) ∧
      (∀ i, (h : i < 48) → k.tr.epclen.toNat ≤ i → k.tr.epc[i] = 0) ∧
      d.toNat = k.tr.epclen.toNat + (if FirstFrame s.codec then 256 else 0) +
        (if HasTelemetry s.codec then 512 else 0)

/-- The RSSI of a completed decode: on a first frame the 16-bit pattern at offsets 22 and 23, little-endian, with its valid bit; on a
continuation frame, whose sequence byte is 2 to 255 unsigned, both stay as they were (R33, R143; D16, D17). -/
def Obligations.DecinvRssiOnFirstFramesOnly : Prop :=
  ∀ (s : State) (k : Codec) (d : Word), Answers .decinv s k .ok d →
    (FirstFrame s.codec →
      k.tr.rssi.toNat = s.codec.rx[22].toNat + 256 * s.codec.rx[23].toNat ∧ k.tr.rssiV = true) ∧
    (¬ FirstFrame s.codec → k.tr.rssi = s.codec.tr.rssi ∧ k.tr.rssiV = s.codec.tr.rssiV)

/-- Step 4 (R145): iff flags bits 1 and 3 are both set, the 8-byte block at the data start is read (port, phase masked to 6 bits,
signed temperature, signed little-endian frequency, +3 ignored) and the identifier moves 8 bytes on and is 8 bytes shorter; with either bit clear
there is no block and no shift, and the telemetry registers keep what they held (R147, D19). The data start by the unsigned sequence
byte is R143's (D16), the info length's byte order D17's, and the two signed readings rest on two's complement (R10, PRESUMED,
log 8). -/
def Obligations.DecinvReadsTheTelemetryBlock : Prop :=
  ∀ (s : State) (k : Codec) (d : Word), Answers .decinv s k .ok d →
    ∀ D : Nat, D = (if FirstFrame s.codec then 26 else 14) →
    (HasTelemetry s.codec →
      s.codec.rx[D]? = some k.tr.port ∧
      (∃ b, s.codec.rx[D + 1]? = some b ∧ k.tr.phase.toNat = b.toNat % 64) ∧
      s.codec.rx[D + 2]? = some k.tr.temp ∧
      (∃ b0 b1 b2 b3, s.codec.rx[D + 4]? = some b0 ∧ s.codec.rx[D + 5]? = some b1 ∧
        s.codec.rx[D + 6]? = some b2 ∧ s.codec.rx[D + 7]? = some b3 ∧ k.tr.freq.toNat = le32 b0 b1 b2 b3) ∧
      tempValue k.tr = (if k.tr.temp.toNat < 2 ^ 7 then (k.tr.temp.toNat : Int) else (k.tr.temp.toNat : Int) - 2 ^ 8) ∧
      freqValue k.tr = (if k.tr.freq.toNat < 2 ^ 31 then (k.tr.freq.toNat : Int) else (k.tr.freq.toNat : Int) - 2 ^ 32) ∧
      k.tr.portV = true ∧ k.tr.phaseV = true ∧ k.tr.tempV = true ∧ k.tr.freqV = true ∧
      k.tr.epclen.toNat + 24 = 4 * infoLen s.codec ∧
      ∀ i, (h : i < 48) → i < k.tr.epclen.toNat → s.codec.rx[D + 10 + i]? = some k.tr.epc[i]) ∧
    (¬ HasTelemetry s.codec →
      k.tr.port = s.codec.tr.port ∧ k.tr.phase = s.codec.tr.phase ∧ k.tr.temp = s.codec.tr.temp ∧
      k.tr.freq = s.codec.tr.freq ∧ k.tr.portV = s.codec.tr.portV ∧ k.tr.phaseV = s.codec.tr.phaseV ∧
      k.tr.tempV = s.codec.tr.tempV ∧ k.tr.freqV = s.codec.tr.freqV ∧
      k.tr.epclen.toNat + 16 = 4 * infoLen s.codec ∧
      ∀ i, (h : i < 48) → i < k.tr.epclen.toNat → s.codec.rx[D + 2 + i]? = some k.tr.epc[i])

/-- A completed decode of a frame without telemetry keeps the four telemetry fields and their valid bits, whatever an earlier frame
put there (R147, R196; D19). -/
def Obligations.DecinvKeepsFieldsTheFrameLacks : Prop :=
  ∀ (s : State) (k : Codec) (d : Word), Answers .decinv s k .ok d → ¬ HasTelemetry s.codec →
    k.tr.port = s.codec.tr.port ∧ k.tr.portV = s.codec.tr.portV ∧
    k.tr.phase = s.codec.tr.phase ∧ k.tr.phaseV = s.codec.tr.phaseV ∧
    k.tr.temp = s.codec.tr.temp ∧ k.tr.tempV = s.codec.tr.tempV ∧
    k.tr.freq = s.codec.tr.freq ∧ k.tr.freqV = s.codec.tr.freqV

/-- Steps 5 and 6 (R146): on an admitted, valid frame the test is exactly `L < 0 or S + L > 64` with `S` the identifier's offset and
`L` its length; failing it is `TruncatedFrame` with the record untouched (R147, D18), passing it is `OK` with those bytes as the identifier; and in
numbers the accepted info lengths are 4 to 13 (first), 4 to 16 (continuation), from 6 with telemetry. `S` rests on the unsigned
sequence byte (R143, D16) and `L` on the byte order of the info length (D17). -/
def Obligations.DecinvIdentifierBounds : Prop :=
  ∀ s : State, Admitted s.codec → TagValid s.codec →
    ∀ (S T : Nat) (L : Int), T = (if HasTelemetry s.codec then 8 else 0) →
      S = (if FirstFrame s.codec then 26 else 14) + T + 2 → L = 4 * (infoLen s.codec : Int) - 16 - T →
      ((L < 0 ∨ S + L > 64) → Answers .decinv s s.codec .truncatedFrame 0) ∧
      (¬ (L < 0 ∨ S + L > 64) → ∃ (k : Codec) (d : Word), Answers .decinv s k .ok d ∧ k.tr.epclen.toNat = L ∧
        ∀ i : Nat, (h : i < 48) → (i : Int) < L → s.codec.rx[S + i]? = some k.tr.epc[i]) ∧
      (¬ (L < 0 ∨ S + L > 64) ↔ AcceptedLength s.codec) ∧
      (¬ (L < 0 ∨ S + L > 64) → L ≤ 48 ∧ (FirstFrame s.codec → L ≤ 36))

/-- `DECINV` is idempotent on the record: issued again on the same receive buffer it answers the same and leaves the record as the
first left it (R56, which the spec derives). -/
def Obligations.DecinvIsIdempotent : Prop :=
  ∀ (s t : State) (k : Codec) (st : Status) (d : Word), Answers .decinv s k st d → t.codec = k →
    Answers .decinv t k st d

/-- `DECINV` looks at nothing but what the frame layout names: two frames that agree on the sequence byte, flags bits 0, 1 and 3, the
info length, the RSSI bytes of a first frame, the telemetry fields of a block and the identifier decode alike, whatever their other
bytes and bits, Inventory or Access (R74, R75, R76; D34, D35, D36). -/
def Obligations.DecinvIgnoresEveryUnnamedBit : Prop :=
  ∀ s u : State, Admitted s.codec → Admitted u.codec → s.codec.tr = u.codec.tr →
    s.codec.rx[5] = u.codec.rx[5] →
    s.codec.rx[7].getLsbD 0 = u.codec.rx[7].getLsbD 0 →
    s.codec.rx[7].getLsbD 1 = u.codec.rx[7].getLsbD 1 →
    s.codec.rx[7].getLsbD 3 = u.codec.rx[7].getLsbD 3 →
    s.codec.rx[10] = u.codec.rx[10] → s.codec.rx[11] = u.codec.rx[11] →
    (FirstFrame s.codec → s.codec.rx[22] = u.codec.rx[22] ∧ s.codec.rx[23] = u.codec.rx[23]) →
    (∀ D T : Nat, D = (if FirstFrame s.codec then 26 else 14) → T = (if HasTelemetry s.codec then 8 else 0) →
      (HasTelemetry s.codec → ∀ j, j ∈ [0, 2, 4, 5, 6, 7] → s.codec.rx[D + j]? = u.codec.rx[D + j]?) ∧
      (HasTelemetry s.codec → ∀ b c, s.codec.rx[D + 1]? = some b → u.codec.rx[D + 1]? = some c →
        b.toNat % 64 = c.toNat % 64) ∧
      (∀ i, i + 16 + T < 4 * infoLen s.codec → s.codec.rx[D + T + 2 + i]? = u.codec.rx[D + T + 2 + i]?)) →
    ∀ (k : Codec) (st : Status) (d : Word), Answers .decinv s k st d →
      ∃ k', Answers .decinv u k' st d ∧ k'.tr = k.tr

/-- `TR.CRCVALID` (R32): set to 1 by every `DECINV` that completes `OK`, and by no other operation; cleared by `TRCLR` and reset, and by
no other operation or event, so never by `DECINV`. -/
def Obligations.CrcValidIsSetAndClearedAsStated : Prop :=
  (∀ (s : State) (k : Codec) (d : Word), Answers .decinv s k .ok d → k.tr.crcValid = true) ∧
  (∀ s : State, ∃ k, Answers .trclr s k .ok 0 ∧ k.tr.crcValid = false) ∧
  (∀ (s : State) (rest : List HostInput), s.pending = .reset :: rest →
    ∃ t, step s = .next t ∧ t.codec.tr.crcValid = false) ∧
  State.reset.codec.tr.crcValid = false ∧
  (∀ (i : Instr) (s t : State), exec i s = .next t → i ≠ .trclr → s.codec.tr.crcValid = true → t.codec.tr.crcValid = true) ∧
  (∀ (i : Instr) (s t : State), exec i s = .next t → i ≠ .decinv → s.codec.tr.crcValid = false → t.codec.tr.crcValid = false) ∧
  (∀ s t : State, step s = .next t → s.codec.tr.crcValid = true → t.codec.tr.crcValid = false →
    (∃ rest, s.pending = .reset :: rest) ∨ (∃ w rest, s.pending = .command w :: rest ∧ decode w = .ok .trclr))

/-! ### StatusDecoder -/

/-- `RDB off`: in range, the byte at the offset zero-extended, `OK`, no state changes (R161; D23). -/
def Obligations.RdbReturnsTheByteUnsigned : Prop :=
  ∀ (s : State) (off b : Byte), off.toNat + 1 ≤ s.codec.rxlen.toNat → s.codec.rx[off.toNat]? = some b →
    ∃ d : Word, d.toNat = b.toNat ∧ Answers (.rdb off) s s.codec .ok d

/-- `RDS off, le`: in range, the 16-bit value of the two bytes, least significant first for `le = 1` and last for `le = 0`, returned
sign-extended, `OK`, no state changes (R162; D23). The signed value is the two's-complement reading, the spec's one passage from
general knowledge (R10, PRESUMED, log 8). -/
def Obligations.RdsReturnsTheSignedValue : Prop :=
  ∀ (s : State) (off b0 b1 : Byte) (le : Bool), off.toNat + 2 ≤ s.codec.rxlen.toNat →
    s.codec.rx[off.toNat]? = some b0 → s.codec.rx[off.toNat + 1]? = some b1 →
    ∀ v : Nat, v = (if le then le16 b0 b1 else be16 b0 b1) →
      ∃ d : Word, d.toInt = (if v < 2 ^ 15 then (v : Int) else (v : Int) - 2 ^ 16) ∧
        Answers (.rds off le) s s.codec .ok d

/-- `RDI off, le` (R163): `op = 0x0E`, `off = arg[7:0]`, `le = arg[8]`; in range the 32-bit pattern of the four bytes in the order `le`
selects, whose value is its two's-complement reading; out of range `TruncatedFrame`; no state changes. The big-endian
order and the bound by the stored bytes are D23's; two's complement is R10's, PRESUMED (log 8). -/
def Obligations.RdiReturnsTheSignedValue : Prop :=
  (∀ w : CmdWord, w.toNat / 2 ^ 32 = 0x0E →
    decode w = .ok (.rdi (BitVec.ofNat 8 (w.toNat % 256)) (decide (w.toNat / 256 % 2 = 1)))) ∧
  ∀ (s : State) (off : Byte) (le : Bool),
    (min s.codec.rxlen.toNat 64 < off.toNat + 4 → Answers (.rdi off le) s s.codec .truncatedFrame 0) ∧
    (off.toNat + 4 ≤ min s.codec.rxlen.toNat 64 → ∃ (b0 b1 b2 b3 : Byte) (d : Word),
      s.codec.rx[off.toNat]? = some b0 ∧ s.codec.rx[off.toNat + 1]? = some b1 ∧
      s.codec.rx[off.toNat + 2]? = some b2 ∧ s.codec.rx[off.toNat + 3]? = some b3 ∧
      d.toNat = (if le then le32 b0 b1 b2 b3 else be32 b0 b1 b2 b3) ∧
      d.toInt = sint d ∧
      Answers (.rdi off le) s s.codec .ok d)

/-- `RDVER off`: in range, the three bytes in offset order from bit 0 up, bits 31 to 24 zero, `OK`, no state changes; the host's text is
`VERSION_RENDER` of them (R164; D24). -/
def Obligations.RdverReturnsThreeBytesInOrder : Prop :=
  ∀ (s : State) (off b0 b1 b2 : Byte), off.toNat + 3 ≤ s.codec.rxlen.toNat →
    s.codec.rx[off.toNat]? = some b0 → s.codec.rx[off.toNat + 1]? = some b1 → s.codec.rx[off.toNat + 2]? = some b2 →
    (∃ d : Word, d.toNat = b0.toNat + 2 ^ 8 * b1.toNat + 2 ^ 16 * b2.toNat ∧ Answers (.rdver off) s s.codec .ok d) ∧
    versionText hardware s.codec off = some (hardware.versionRender b0 b1 b2)

/-- Each of the four reads is bounded by the bytes stored: `off + width > RXN` answers `TruncatedFrame`, data 0, no state changes, for
any offset 0 to 255 and any frame (R160; D23). -/
def Obligations.ReadsBeyondTheStoredBytesAreTruncated : Prop :=
  ∀ (s : State) (off : Byte) (le : Bool),
    (min s.codec.rxlen.toNat 64 < off.toNat + 1 → Answers (.rdb off) s s.codec .truncatedFrame 0) ∧
    (min s.codec.rxlen.toNat 64 < off.toNat + 2 → Answers (.rds off le) s s.codec .truncatedFrame 0) ∧
    (min s.codec.rxlen.toNat 64 < off.toNat + 4 → Answers (.rdi off le) s s.codec .truncatedFrame 0) ∧
    (min s.codec.rxlen.toNat 64 < off.toNat + 3 → Answers (.rdver off) s s.codec .truncatedFrame 0)

/-- Mixed-width reads agree: the data of `RDS off, LE` is the sign-extension of the bytes `RDB off` and `RDB off+1` return, and `RDI`'s is
made of the four `RDB`s (R53, which the spec derives). That the extension bits repeat the sign bit is two's complement (R10, PRESUMED,
log 8). -/
def Obligations.WiderReadsAgreeWithByteReads : Prop :=
  ∀ (s : State) (off : Byte),
    (off.toNat + 2 ≤ min s.codec.rxlen.toNat 64 → ∃ d d0 d1 : Word,
      Answers (.rds off true) s s.codec .ok d ∧ Answers (.rdb off) s s.codec .ok d0 ∧
      Answers (.rdb (off + 1)) s s.codec .ok d1 ∧
      d.toNat % 2 ^ 16 = d0.toNat + 256 * d1.toNat ∧ d.toNat / 2 ^ 16 = (if d1.toNat < 128 then 0 else 0xFFFF)) ∧
    (off.toNat + 4 ≤ min s.codec.rxlen.toNat 64 → ∃ d d0 d1 d2 d3 : Word,
      Answers (.rdi off true) s s.codec .ok d ∧ Answers (.rdb off) s s.codec .ok d0 ∧
      Answers (.rdb (off + 1)) s s.codec .ok d1 ∧ Answers (.rdb (off + 2)) s s.codec .ok d2 ∧
      Answers (.rdb (off + 3)) s s.codec .ok d3 ∧
      d.toNat = d0.toNat + 2 ^ 8 * d1.toNat + 2 ^ 16 * d2.toNat + 2 ^ 24 * d3.toNat)

/-! ### Rules of the whole machine -/

/-- An operation that ends with any status other than `OK` leaves the codec exactly as it was, and so does a reserved operation code
(R176; D10, D18). -/
def Obligations.EveryFailureChangesNothing : Prop :=
  ∀ (s t : State) (w : CmdWord) (rest : List HostInput) (r : Response),
    s.pending = .command w :: rest → step s = .next t → t.rsps = s.rsps ++ [r] → r.status ≠ .ok → t.codec = s.codec

/-- What each operation may write (R50): the packers only `PB`, `PLEN`, `POVF`; `COMPOSE` only `TX`, `TXVALID`; `RXCLR` and `RXPUSH` only
`RX`, `RXLEN`; `TRCLR` and `DECINV` only `TR`; every other operation nothing. Each adds one response and leaves the host's other events
(R171). Rests on D1, D7, D10, D11, D21. -/
def Obligations.EachOperationWritesOnlyItsSpace : Prop :=
  ∀ (i : Instr) (s t : State), exec i s = .next t →
    (∃ r, t.rsps = s.rsps ++ [r]) ∧ t.pending = s.pending ∧
    match i with
    | .pbrst | .packb _ | .packs _ | .packi _ =>
      t.codec = { s.codec with pb := t.codec.pb, plen := t.codec.plen, povf := t.codec.povf }
    | .compose _ => t.codec = { s.codec with tx := t.codec.tx, txValid := t.codec.txValid }
    | .rxclr | .rxpush _ => t.codec = { s.codec with rx := t.codec.rx, rxlen := t.codec.rxlen }
    | .trclr | .decinv => t.codec = { s.codec with tr := t.codec.tr }
    | .classify | .opcodeof | .verify | .rdb _ | .rds _ _ | .rdi _ _ | .rdver _ =>
      t.codec = s.codec ∧ ∀ sp a, spaceByte t.codec sp a = spaceByte s.codec sp a

/-- Every reading operation leaves the codec unchanged and, issued again, answers the same (R56, which the spec derives). -/
def Obligations.ReadingOperationsAreIdempotent : Prop :=
  ∀ (i : Instr) (s : State),
    (match i with
     | .classify | .opcodeof | .verify | .rdb _ | .rds _ _ | .rdi _ _ | .rdver _ => True
     | _ => False) →
    ∃ (st : Status) (d : Word), Answers i s s.codec st d ∧ ∀ t : State, t.codec = s.codec → Answers i t t.codec st d

/-- Which operation can end with which status, and with what data beside `OK` (R170, R182; D4, D6, D14). -/
def Obligations.EachStatusComesFromItsOperations : Prop :=
  ∀ (i : Instr) (s t : State) (r : Response), exec i s = .next t → t.rsps = s.rsps ++ [r] →
    (match r.status with
     | .ok => True
     | .parameterOverflow => ∃ o, i = .compose o
     | .unknownFrameType => i = .classify ∨ i = .verify ∨ i = .decinv
     | .unknownOpcode => i = .opcodeof
     | .truncatedFrame => i = .classify ∨ i = .verify ∨ i = .decinv ∨ i = .opcodeof ∨ (∃ o, i = .rdb o) ∨
         (∃ o e, i = .rds o e) ∨ (∃ o e, i = .rdi o e) ∨ (∃ o, i = .rdver o)
     | .checksumMismatch => i = .verify
     | .crcInvalidFlag => i = .decinv
     | .wrongFrameFamily => i = .verify ∨ i = .decinv
     | .illegalOp => False) ∧
    (r.status ≠ .ok → r.status ≠ .unknownOpcode → r.status ≠ .checksumMismatch → r.data = 0)

/-- `TXVALID` says that a frame has been composed since reset: no operation clears it, and only `COMPOSE` sets it
(R26, R200; D10). -/
def Obligations.TxValidIsSetByComposeOnly : Prop :=
  ∀ (i : Instr) (s t : State), exec i s = .next t →
    (s.codec.txValid = true → t.codec.txValid = true) ∧
    (s.codec.txValid = false → t.codec.txValid = true → ∃ o, i = .compose o ∧ s.codec.povf = false)

/-- The checksum function matters to `COMPOSE` and `VERIFY` only, the opcode table to `OPCODEOF` only: nothing else checks a checksum, and
`COMPOSE` composes any opcode (R114, R182, R201; D14, D30). -/
def Obligations.OnlyTheNamedOperationsUseTheParameters : Prop :=
  ∀ (c : Config) (i : Instr) (k : Codec),
    ((∀ o, i ≠ .compose o) → i ≠ .verify → ∀ f : List Byte → Half, opResult c i k = opResult { c with crc16 := f } i k) ∧
    (i ≠ .opcodeof → ∀ t : Byte → Option (Fin c.nCmds), opResult c i k = opResult { c with opcodeTable := t } i k)

/-- `renderHex` (R150): the unspaced text has two characters per byte, the upper-case digit of the high nibble then that of the low; the
spaced text is those pairs with one space between (D22). -/
def Obligations.RenderHexDigits : Prop :=
  ∀ bytes : List Byte,
    (renderHexChars false bytes).length = 2 * bytes.length ∧
    (∀ i, (h : i < bytes.length) →
      (renderHexChars false bytes)[2 * i]? = "0123456789ABCDEF".toList[bytes[i].toNat / 16]? ∧
      (renderHexChars false bytes)[2 * i + 1]? = "0123456789ABCDEF".toList[bytes[i].toNat % 16]?) ∧
    (renderHexChars true bytes).length = 3 * bytes.length - 1 ∧
    (∀ i, (h : i < bytes.length) →
      (renderHexChars true bytes)[3 * i]? = "0123456789ABCDEF".toList[bytes[i].toNat / 16]? ∧
      (renderHexChars true bytes)[3 * i + 1]? = "0123456789ABCDEF".toList[bytes[i].toNat % 16]? ∧
      (i + 1 < bytes.length → (renderHexChars true bytes)[3 * i + 2]? = some ' '))
end

