-- ==== Sys2Proof/Laws/State.lean ====
section
/-! SUPPORT. One lemma per field per named update of the state. -/

namespace Sys2Proof.Machine

@[simp] theorem Codec.setPacker_pb (k : Codec) (pb : Vector Byte 8) (plen : BitVec 4) (povf : Bool) :
    (k.setPacker pb plen povf).pb = pb := rfl
@[simp] theorem Codec.setPacker_plen (k : Codec) (pb : Vector Byte 8) (plen : BitVec 4) (povf : Bool) :
    (k.setPacker pb plen povf).plen = plen := rfl
@[simp] theorem Codec.setPacker_povf (k : Codec) (pb : Vector Byte 8) (plen : BitVec 4) (povf : Bool) :
    (k.setPacker pb plen povf).povf = povf := rfl
@[simp] theorem Codec.setPacker_tx (k : Codec) (pb : Vector Byte 8) (plen : BitVec 4) (povf : Bool) :
    (k.setPacker pb plen povf).tx = k.tx := rfl
@[simp] theorem Codec.setPacker_txValid (k : Codec) (pb : Vector Byte 8) (plen : BitVec 4) (povf : Bool) :
    (k.setPacker pb plen povf).txValid = k.txValid := rfl
@[simp] theorem Codec.setPacker_rx (k : Codec) (pb : Vector Byte 8) (plen : BitVec 4) (povf : Bool) :
    (k.setPacker pb plen povf).rx = k.rx := rfl
@[simp] theorem Codec.setPacker_rxlen (k : Codec) (pb : Vector Byte 8) (plen : BitVec 4) (povf : Bool) :
    (k.setPacker pb plen povf).rxlen = k.rxlen := rfl
@[simp] theorem Codec.setPacker_tr (k : Codec) (pb : Vector Byte 8) (plen : BitVec 4) (povf : Bool) :
    (k.setPacker pb plen povf).tr = k.tr := rfl

@[simp] theorem Codec.setTx_pb (k : Codec) (tx : Vector Byte 16) (valid : Bool) :
    (k.setTx tx valid).pb = k.pb := rfl
@[simp] theorem Codec.setTx_plen (k : Codec) (tx : Vector Byte 16) (valid : Bool) :
    (k.setTx tx valid).plen = k.plen := rfl
@[simp] theorem Codec.setTx_povf (k : Codec) (tx : Vector Byte 16) (valid : Bool) :
    (k.setTx tx valid).povf = k.povf := rfl
@[simp] theorem Codec.setTx_tx (k : Codec) (tx : Vector Byte 16) (valid : Bool) :
    (k.setTx tx valid).tx = tx := rfl
@[simp] theorem Codec.setTx_txValid (k : Codec) (tx : Vector Byte 16) (valid : Bool) :
    (k.setTx tx valid).txValid = valid := rfl
@[simp] theorem Codec.setTx_rx (k : Codec) (tx : Vector Byte 16) (valid : Bool) :
    (k.setTx tx valid).rx = k.rx := rfl
@[simp] theorem Codec.setTx_rxlen (k : Codec) (tx : Vector Byte 16) (valid : Bool) :
    (k.setTx tx valid).rxlen = k.rxlen := rfl
@[simp] theorem Codec.setTx_tr (k : Codec) (tx : Vector Byte 16) (valid : Bool) :
    (k.setTx tx valid).tr = k.tr := rfl

@[simp] theorem Codec.setRx_pb (k : Codec) (rx : Vector Byte 64) (rxlen : BitVec 7) :
    (k.setRx rx rxlen).pb = k.pb := rfl
@[simp] theorem Codec.setRx_plen (k : Codec) (rx : Vector Byte 64) (rxlen : BitVec 7) :
    (k.setRx rx rxlen).plen = k.plen := rfl
@[simp] theorem Codec.setRx_povf (k : Codec) (rx : Vector Byte 64) (rxlen : BitVec 7) :
    (k.setRx rx rxlen).povf = k.povf := rfl
@[simp] theorem Codec.setRx_tx (k : Codec) (rx : Vector Byte 64) (rxlen : BitVec 7) :
    (k.setRx rx rxlen).tx = k.tx := rfl
@[simp] theorem Codec.setRx_txValid (k : Codec) (rx : Vector Byte 64) (rxlen : BitVec 7) :
    (k.setRx rx rxlen).txValid = k.txValid := rfl
@[simp] theorem Codec.setRx_rx (k : Codec) (rx : Vector Byte 64) (rxlen : BitVec 7) :
    (k.setRx rx rxlen).rx = rx := rfl
@[simp] theorem Codec.setRx_rxlen (k : Codec) (rx : Vector Byte 64) (rxlen : BitVec 7) :
    (k.setRx rx rxlen).rxlen = rxlen := rfl
@[simp] theorem Codec.setRx_tr (k : Codec) (rx : Vector Byte 64) (rxlen : BitVec 7) :
    (k.setRx rx rxlen).tr = k.tr := rfl

@[simp] theorem Codec.setTr_pb (k : Codec) (tr : TagRecord) :
    (k.setTr tr).pb = k.pb := rfl
@[simp] theorem Codec.setTr_plen (k : Codec) (tr : TagRecord) :
    (k.setTr tr).plen = k.plen := rfl
@[simp] theorem Codec.setTr_povf (k : Codec) (tr : TagRecord) :
    (k.setTr tr).povf = k.povf := rfl
@[simp] theorem Codec.setTr_tx (k : Codec) (tr : TagRecord) :
    (k.setTr tr).tx = k.tx := rfl
@[simp] theorem Codec.setTr_txValid (k : Codec) (tr : TagRecord) :
    (k.setTr tr).txValid = k.txValid := rfl
@[simp] theorem Codec.setTr_rx (k : Codec) (tr : TagRecord) :
    (k.setTr tr).rx = k.rx := rfl
@[simp] theorem Codec.setTr_rxlen (k : Codec) (tr : TagRecord) :
    (k.setTr tr).rxlen = k.rxlen := rfl
@[simp] theorem Codec.setTr_tr (k : Codec) (tr : TagRecord) :
    (k.setTr tr).tr = tr := rfl

@[simp] theorem State.answered_codec (s : State) (k : Codec) (r : Response) : (s.answered k r).codec = k := rfl
@[simp] theorem State.answered_pending (s : State) (k : Codec) (r : Response) : (s.answered k r).pending = s.pending := rfl
@[simp] theorem State.answered_rsps (s : State) (k : Codec) (r : Response) : (s.answered k r).rsps = s.rsps ++ [r] := rfl

@[simp] theorem State.withPending_codec (s : State) (es : List HostInput) : (s.withPending es).codec = s.codec := rfl
@[simp] theorem State.withPending_pending (s : State) (es : List HostInput) : (s.withPending es).pending = es := rfl
@[simp] theorem State.withPending_rsps (s : State) (es : List HostInput) : (s.withPending es).rsps = s.rsps := rfl

@[simp] theorem State.withReset_codec (s : State) : (s.withReset).codec = Codec.reset := rfl
@[simp] theorem State.withReset_pending (s : State) : (s.withReset).pending = s.pending := rfl
@[simp] theorem State.withReset_rsps (s : State) : (s.withReset).rsps = s.rsps := rfl

end Sys2Proof.Machine
end

