-- ==== Sys2Proof/Laws/Ops.lean ====
section
/-! SUPPORT. One specification lemma per shared operation: what it gives and what it leaves. -/

namespace Sys2Proof.Machine

/-! ### The end of an operation -/

/-- An answer always is a next state. -/
theorem deliver_eq (s : State) (r : OpResult) :
    deliver s r = .next { codec := nextCodec s.codec r, pending := s.pending, rsps := s.rsps ++ [responseOf r] } := rfl

@[simp] theorem nextCodec_complete (k k' : Codec) (d : Word) : nextCodec k (.complete k' d) = k' := rfl
@[simp] theorem nextCodec_raise (k : Codec) (st : Status) (d : Word) : nextCodec k (.raise st d) = k := rfl
@[simp] theorem responseOf_complete (k : Codec) (d : Word) : responseOf (.complete k d) = ⟨.ok, d⟩ := rfl
@[simp] theorem responseOf_raise (st : Status) (d : Word) : responseOf (.raise st d) = ⟨st, d⟩ := rfl

/-- Every operation is the delivery of R12's function at the codec's own configuration. -/
theorem exec_eq_deliver (i : Instr) (s : State) : exec i s = deliver s (opResult hardware i s.codec) := by
  cases i <;> rfl

/-- `Answers` read as a fact about R12's function. -/
theorem answers_iff (i : Instr) (s : State) (k : Codec) (st : Status) (d : Word) :
    Answers i s k st d ↔
      nextCodec s.codec (opResult hardware i s.codec) = k ∧ responseOf (opResult hardware i s.codec) = ⟨st, d⟩ := by
  rw [Answers, exec_eq_deliver, deliver_eq]
  simp

/-! ### Reads -/

theorem byteAt_of_lt {n : Nat} (b : Vector Byte n) (off : Nat) (h : off < n) : byteAt b off = b[off] := by
  simp [byteAt, Vector.getD, h]

theorem rxn_le (k : Codec) : rxn k ≤ 64 := Nat.min_le_right _ _

theorem boundedRead_of_le (k : Codec) (off w : Nat) (d : Word) (h : off + w ≤ rxn k) :
    boundedRead k off w d = .complete k d := if_pos h

theorem boundedRead_of_gt (k : Codec) (off w : Nat) (d : Word) (h : rxn k < off + w) :
    boundedRead k off w d = .raise .truncatedFrame 0 := if_neg (by omega)

/-- A bounded read writes nothing, in range or out. -/
@[simp] theorem nextCodec_boundedRead (k : Codec) (off w : Nat) (d : Word) : nextCodec k (boundedRead k off w d) = k := by
  unfold boundedRead; split <;> rfl

/-! ### Appends -/

/-- Everything `append1` does while there is room. -/
theorem append1_of_lt (b : Byte) (k : Codec) (h : k.plen.toNat < 8) :
    (append1 b k).plen.toNat = k.plen.toNat + 1 ∧ (append1 b k).povf = k.povf ∧
    ∀ i, (hi : i < 8) → (append1 b k).pb[i] = if i = k.plen.toNat then b else k.pb[i] := by
  simp only [append1, h, if_true, Codec.setPacker_plen, Codec.setPacker_povf, Codec.setPacker_pb]
  refine ⟨by simp; omega, trivial, fun i hi => ?_⟩
  rw [Vector.getElem_setIfInBounds]
  simp [eq_comm]

/-- Everything `append1` does on a full buffer. -/
theorem append1_of_ge (b : Byte) (k : Codec) (h : 8 ≤ k.plen.toNat) : append1 b k = k.setPacker k.pb k.plen true := by
  simp [append1, Nat.not_lt.mpr h]

/-- `append1` touches the packer's registers only. -/
theorem append1_frame (b : Byte) (k : Codec) :
    append1 b k = k.setPacker (append1 b k).pb (append1 b k).plen (append1 b k).povf := by
  unfold append1; split <;> rfl

@[simp] theorem appendBytes_nil (k : Codec) : appendBytes [] k = k := rfl
@[simp] theorem appendBytes_cons (b : Byte) (bs : List Byte) (k : Codec) :
    appendBytes (b :: bs) k = appendBytes bs (append1 b k) := rfl

theorem appendBytes_append (as bs : List Byte) (k : Codec) :
    appendBytes (as ++ bs) k = appendBytes bs (appendBytes as k) := by
  simp [appendBytes, List.foldl_append]

/-- Appending touches the packer's registers only. -/
theorem appendBytes_frame (bs : List Byte) (k : Codec) :
    appendBytes bs k = k.setPacker (appendBytes bs k).pb (appendBytes bs k).plen (appendBytes bs k).povf := by
  induction bs generalizing k with
  | nil => rfl
  | cons b bs ih =>
    rw [appendBytes_cons, ih (append1 b k), append1_frame b k]
    rfl

theorem append1_keeps_inv (b : Byte) (k : Codec) (h : PackerInv k) : PackerInv (append1 b k) := by
  obtain ⟨hle, hz, hv⟩ := h
  by_cases hl : k.plen.toNat < 8
  · obtain ⟨h1, h2, h3⟩ := append1_of_lt b k hl
    refine ⟨by omega, fun i hi hge => ?_, fun hp => ?_⟩
    · rw [h3 i hi, if_neg (by omega)]; exact hz i hi (by omega)
    · rw [h2] at hp; have := hv hp; omega
  · rw [append1_of_ge b k (by omega)]
    exact ⟨hle, hz, fun _ => by simp; omega⟩

/-- The packer's registers keep their form under appends. -/
theorem appendBytes_keeps_inv (bs : List Byte) (k : Codec) (h : PackerInv k) : PackerInv (appendBytes bs k) := by
  induction bs generalizing k with
  | nil => exact h
  | cons b bs ih => exact ih _ (append1_keeps_inv b k h)

/-- Everything `pushRx` does while there is room. -/
theorem pushRx_of_lt (b : Byte) (k : Codec) (h : k.rxlen.toNat < 64) :
    (pushRx b k).rxlen.toNat = k.rxlen.toNat + 1 ∧
    ∀ i, (hi : i < 64) → (pushRx b k).rx[i] = if i = k.rxlen.toNat then b else k.rx[i] := by
  simp only [pushRx, h, if_true, Codec.setRx_rxlen, Codec.setRx_rx]
  refine ⟨by simp; omega, fun i hi => ?_⟩
  rw [Vector.getElem_setIfInBounds]
  simp [eq_comm]

/-- Everything `pushRx` does on a full buffer. -/
theorem pushRx_of_ge (b : Byte) (k : Codec) (h : 64 ≤ k.rxlen.toNat) : pushRx b k = k.setRx k.rx 65 := by
  simp [pushRx, Nat.not_lt.mpr h]

/-- `pushRx` touches the receive buffer only. -/
theorem pushRx_frame (b : Byte) (k : Codec) : pushRx b k = k.setRx (pushRx b k).rx (pushRx b k).rxlen := by
  unfold pushRx; split <;> rfl

/-- The receive buffer keeps its form under a push. -/
theorem pushRx_keeps_inv (b : Byte) (k : Codec) (h : ReceiveInv k) : ReceiveInv (pushRx b k) := by
  obtain ⟨hle, hz⟩ := h
  by_cases hl : k.rxlen.toNat < 64
  · obtain ⟨h1, h2⟩ := pushRx_of_lt b k hl
    refine ⟨by omega, fun i hi hge => ?_⟩
    rw [rxn, h1] at hge
    rw [h2 i hi, if_neg (by omega)]
    exact hz i hi (by rw [rxn]; omega)
  · rw [pushRx_of_ge b k (by omega)]
    refine ⟨by simp, fun i hi hge => ?_⟩
    simp only [rxn, Codec.setRx_rxlen] at hge
    have : ((65 : BitVec 7)).toNat = 65 := rfl
    omega

end Sys2Proof.Machine
end

