-- ==== Sys2Proof/Laws/Classify.lean ====
section
/-! SUPPORT. The configuration's constraints (R6) and the classifier (R123). -/

namespace Sys2Proof.Machine

theorem slot_injective : Function.Injective FrameType.slot := by
  intro a b h
  cases a <;> cases b <;> first | rfl | exact absurd h (by decide)

/-- The codec's own configuration meets R6's constraints. -/
theorem hardware_wellFormed : hardware.WellFormed :=
  ⟨rfl, fun _ _ h => slot_injective (Param.tagPlace.injective h)⟩

theorem mem_all (t : FrameType) : t ∈ FrameType.all := by cases t <;> decide

/-- The tag map gives a type exactly for that type's tag byte. -/
theorem tagType_eq_some_iff (c : Config) (hc : c.WellFormed) (b : Byte) (t : FrameType) :
    tagType c b = some t ↔ c.tag t = b := by
  constructor
  · intro h
    have := List.find?_some h
    simpa using this
  · intro h
    cases hf : tagType c b with
    | none =>
      have := List.find?_eq_none.mp hf t (mem_all t)
      simp [h] at this
    | some u =>
      have hu := List.find?_some hf
      have : c.tag u = c.tag t := by rw [h]; simpa using hu
      rw [hc.2 this]

theorem tagType_eq_none_iff (c : Config) (b : Byte) : tagType c b = none ↔ ∀ t, c.tag t ≠ b := by
  unfold tagType
  rw [List.find?_eq_none]
  constructor
  · intro h t ht
    exact h t (mem_all t) (by simp [ht])
  · intro h t _ ht
    exact h t (by simpa using ht)

/-- The classifier accepts exactly the buffers that hold a frame of the type. -/
theorem classifyFrame_eq_ok_iff (k : Codec) (t : FrameType) :
    classifyFrame hardware k = .ok t ↔ HoldsFrame k t := by
  unfold classifyFrame HoldsFrame
  have hlen : declaredLength t ≠ 0 := by cases t <;> decide
  by_cases h0 : k.rxlen = 0
  · rw [if_pos h0]
    constructor
    · intro h; cases h
    · rintro ⟨-, h⟩
      rw [h0] at h
      exact absurd h.symm hlen
  · rw [if_neg h0]
    cases htag : tagType hardware k.rx[0] with
    | none =>
      have := (tagType_eq_none_iff hardware _).mp htag
      constructor
      · intro h; cases h
      · rintro ⟨h, -⟩; exact absurd h.symm (this t)
    | some u =>
      have hu := (tagType_eq_some_iff hardware hardware_wellFormed _ u).mp htag
      by_cases hd : k.rxlen.toNat = declaredLength u
      · simp only [hd, if_true, Except.ok.injEq]
        constructor
        · rintro rfl; exact ⟨hu.symm, rfl⟩
        · rintro ⟨h, -⟩; exact hardware_wellFormed.2 (hu.trans h)
      · simp only [hd, if_false]
        constructor
        · intro h; cases h
        · rintro ⟨h, h2⟩
          rw [hardware_wellFormed.2 (hu.trans h)] at hd
          exact absurd h2 hd

/-- An empty buffer is refused first (R123). -/
theorem classifyFrame_of_empty (c : Config) (k : Codec) (h : k.rxlen = 0) :
    classifyFrame c k = .error .truncatedFrame := if_pos h

/-- An unknown tag is refused next, whatever the length (R123). -/
theorem classifyFrame_of_unknown (c : Config) (k : Codec) (h : k.rxlen ≠ 0) (ht : ∀ t, c.tag t ≠ k.rx[0]) :
    classifyFrame c k = .error .unknownFrameType := by
  rw [classifyFrame, if_neg h, (tagType_eq_none_iff c _).mpr ht]

/-- A known tag with a length other than its own is refused last (R123). -/
theorem classifyFrame_of_length (k : Codec) (t : FrameType) (h : k.rx[0] = hardware.tag t)
    (hl : k.rxlen.toNat ≠ declaredLength t) : classifyFrame hardware k = .error .truncatedFrame := by
  by_cases h0 : k.rxlen = 0
  · exact classifyFrame_of_empty _ _ h0
  · rw [classifyFrame, if_neg h0, (tagType_eq_some_iff hardware hardware_wellFormed _ t).mpr h.symm]
    exact if_neg hl

/-- What the classifier can say: one of two statuses, or a type the buffer holds. -/
theorem classifyFrame_cases (k : Codec) :
    classifyFrame hardware k = .error .truncatedFrame ∨ classifyFrame hardware k = .error .unknownFrameType ∨
    ∃ t, classifyFrame hardware k = .ok t ∧ HoldsFrame k t := by
  unfold classifyFrame
  split
  · exact .inl rfl
  · split
    · exact .inr (.inl rfl)
    · rename_i t ht
      split
      · rename_i hl
        exact .inr (.inr ⟨t, rfl, ((tagType_eq_some_iff hardware hardware_wellFormed _ t).mp ht).symm, hl⟩)
      · exact .inl rfl

end Sys2Proof.Machine
end

