-- ==== Sys2Proof/Laws/Encoding.lean ====
section
/-! SUPPORT. The fields of a command word as numbers, of a given word and of an encoded one. -/

namespace Sys2Proof

/-- A concatenation as a number. -/
theorem append_toNat {m n : Nat} (a : BitVec m) (b : BitVec n) : (a ++ b).toNat = a.toNat * 2 ^ n + b.toNat := by
  rw [BitVec.toNat_append, ← Nat.shiftLeft_add_eq_or_of_lt b.isLt, Nat.shiftLeft_eq]

theorem fields_toNat (op : Byte) (arg : Word) : (op ++ arg : CmdWord).toNat = op.toNat * 2 ^ 32 + arg.toNat :=
  append_toNat op arg

/-- The argument of `RDS` and `RDI` as a number: `le` in bit 8, the offset below (R80). -/
theorem orderArg_toNat (off : Byte) (le : Bool) :
    (0#23 ++ BitVec.ofBool le ++ off : Word).toNat = le.toNat * 256 + off.toNat := by
  have h := append_toNat (0#23 ++ BitVec.ofBool le) off
  have h' : (0#23 ++ BitVec.ofBool le).toNat = le.toNat := by cases le <;> rfl
  rw [h'] at h
  exact h

theorem opField_toNat (w : CmdWord) : (opField w).toNat = w.toNat / 2 ^ 32 := by
  have hw : w.toNat < 2 ^ 40 := w.isLt
  have h : w.toNat / 2 ^ 32 < 2 ^ 8 := by omega
  rw [opField, BitVec.extractLsb'_toNat, Nat.shiftRight_eq_div_pow, Nat.mod_eq_of_lt h]

theorem argField_toNat (w : CmdWord) : (argField w).toNat = w.toNat % 2 ^ 32 := by
  rw [argField, BitVec.extractLsb'_toNat, Nat.shiftRight_zero]

/-- A word is its two fields. -/
theorem word_eq_fields (w : CmdWord) : w = (opField w ++ argField w : CmdWord) := by
  apply BitVec.eq_of_toNat_eq
  rw [fields_toNat, opField_toNat, argField_toNat]
  omega

theorem opField_encode (i : Instr) : opField (encode i) = i.op := by
  apply BitVec.eq_of_toNat_eq
  rw [opField_toNat, encode, fields_toNat]
  have : i.arg.toNat < 2 ^ 32 := i.arg.isLt
  omega

theorem argField_encode (i : Instr) : argField (encode i) = i.arg := by
  apply BitVec.eq_of_toNat_eq
  rw [argField_toNat, encode, fields_toNat]
  have : i.arg.toNat < 2 ^ 32 := i.arg.isLt
  omega

end Sys2Proof
end

