-- ==== Sys2Proof/Laws/Inventory.lean ====
section
/-! SUPPORT. The inventory decoder: the arithmetic of the identifier's place (R143 to R146) and the fields the commit writes
(R147). -/

namespace Sys2Proof.Machine

theorem idLength_eq (rx : Vector Byte 64) :
    idLength rx = 4 * ((rx[10].toNat + 256 * rx[11].toNat : Nat) : Int) - 16 - telemSize rx := by
  unfold idLength extraBytes infoLength le16; ring

theorem telemSize_eq (rx : Vector Byte 64) : telemSize rx = if frameTelem rx then 8 else 0 := rfl
theorem dataStart_eq (rx : Vector Byte 64) : dataStart rx = if frameFirst rx then 26 else 14 := rfl
theorem idStart_eq (rx : Vector Byte 64) : idStart rx = dataStart rx + telemSize rx + 2 := rfl

/-- The bounds test of step 6, as a proposition (R146). -/
theorem idOutOfRange_eq_false_iff (rx : Vector Byte 64) :
    idOutOfRange rx = false ↔ 0 ≤ idLength rx ∧ (idStart rx : Int) + idLength rx ≤ 64 := by
  rw [idOutOfRange, decide_eq_false_iff_not]
  omega

/-- In range, the identifier is a multiple of four bytes, at most 48, and ends inside the frame (R31, R146). -/
theorem idLength_of_inRange (rx : Vector Byte 64) (h : idOutOfRange rx = false) :
    ∃ n : Nat, idLength rx = n ∧ n % 4 = 0 ∧ n ≤ 48 ∧ idStart rx + n ≤ 64 := by
  obtain ⟨h0, h1⟩ := (idOutOfRange_eq_false_iff rx).mp h
  have ht : telemSize rx = 0 ∨ telemSize rx = 8 := by unfold telemSize; split <;> simp
  have hd : 14 ≤ dataStart rx := by unfold dataStart; split <;> omega
  have hs := idStart_eq rx
  have hl := idLength_eq rx
  exact ⟨(idLength rx).toNat, by omega, by omega, by omega, by omega⟩

@[simp] theorem commitId_crcValid (rx : Vector Byte 64) (tr : TagRecord) : (commitId rx tr).crcValid = true := rfl

/-- The identifier fields of the commit (R147). -/
theorem commitRecord_id (rx : Vector Byte 64) (tr : TagRecord) :
    (commitRecord rx tr).crcValid = true ∧ (commitRecord rx tr).epclen = BitVec.ofInt 6 (idLength rx) ∧
    (commitRecord rx tr).epc = idBytes rx := by
  unfold commitRecord commitTelem commitRssi commitId
  split <;> split <;> exact ⟨rfl, rfl, rfl⟩

/-- The first-frame fields of the commit (R143, R147). -/
theorem commitRecord_rssi (rx : Vector Byte 64) (tr : TagRecord) :
    (commitRecord rx tr).rssi = (if frameFirst rx then half rx[22] rx[23] else tr.rssi) ∧
    (commitRecord rx tr).rssiV = (frameFirst rx || tr.rssiV) := by
  unfold commitRecord commitTelem commitRssi commitId
  cases h : frameFirst rx <;> cases h' : frameTelem rx <;> simp

/-- The telemetry fields of the commit (R145, R147). -/
theorem commitRecord_telem (rx : Vector Byte 64) (tr : TagRecord) (h : frameTelem rx = true) :
    (commitRecord rx tr).port = byteAt rx (dataStart rx) ∧
    (commitRecord rx tr).phase = (byteAt rx (dataStart rx + 1)).extractLsb' 0 6 ∧
    (commitRecord rx tr).temp = byteAt rx (dataStart rx + 2) ∧
    (commitRecord rx tr).freq = wordAt rx (dataStart rx + 4) true ∧
    (commitRecord rx tr).portV = true ∧ (commitRecord rx tr).phaseV = true ∧
    (commitRecord rx tr).tempV = true ∧ (commitRecord rx tr).freqV = true := by
  simp [commitRecord, commitTelem, h]

/-- A frame without the block leaves the telemetry fields (R147). -/
theorem commitRecord_noTelem (rx : Vector Byte 64) (tr : TagRecord) (h : frameTelem rx = false) :
    (commitRecord rx tr).port = tr.port ∧ (commitRecord rx tr).phase = tr.phase ∧
    (commitRecord rx tr).temp = tr.temp ∧ (commitRecord rx tr).freq = tr.freq ∧
    (commitRecord rx tr).portV = tr.portV ∧ (commitRecord rx tr).phaseV = tr.phaseV ∧
    (commitRecord rx tr).tempV = tr.tempV ∧ (commitRecord rx tr).freqV = tr.freqV := by
  unfold commitRecord commitTelem commitRssi commitId
  cases h' : frameFirst rx <;> simp [h]

/-- What DECINV can end with: the whole operation, in the order of its tests (R141). -/
theorem decinvOp_cases (k : Codec) :
    (classifyFrame hardware k = .error .truncatedFrame ∧ decinvOp hardware k = .raise .truncatedFrame 0) ∨
    (classifyFrame hardware k = .error .unknownFrameType ∧ decinvOp hardware k = .raise .unknownFrameType 0) ∨
    (∃ t, HoldsFrame k t ∧ t ≠ .inventory ∧ t ≠ .access ∧ decinvOp hardware k = .raise .wrongFrameFamily 0) ∨
    (∃ t, HoldsFrame k t ∧ (t = .inventory ∨ t = .access) ∧
      ((crcFlagged k.rx = true ∧ decinvOp hardware k = .raise .crcInvalidFlag 0) ∨
       (crcFlagged k.rx = false ∧ idOutOfRange k.rx = true ∧ decinvOp hardware k = .raise .truncatedFrame 0) ∨
       (crcFlagged k.rx = false ∧ idOutOfRange k.rx = false ∧
        decinvOp hardware k = .complete (k.setTr (commitRecord k.rx k.tr))
          (decinvData (frameTelem k.rx) (frameFirst k.rx) (idLength k.rx).toNat)))) := by
  rcases classifyFrame_cases k with h | h | ⟨t, h, hf⟩
  · exact .inl ⟨h, by rw [decinvOp, h]⟩
  · exact .inr (.inl ⟨h, by rw [decinvOp, h]⟩)
  · by_cases ht : t = .inventory ∨ t = .access
    · refine .inr (.inr (.inr ⟨t, hf, ht, ?_⟩))
      simp only [decinvOp, h, ht, if_true, decodeFrame]
      cases crcFlagged k.rx <;> cases idOutOfRange k.rx <;> simp
    · exact .inr (.inr (.inl ⟨t, hf, fun e => ht (.inl e), fun e => ht (.inr e), by simp [decinvOp, h, ht]⟩))

end Sys2Proof.Machine
end

