-- ==== Sys2Proof/Laws/Exec.lean ====
section
/-! SUPPORT. What the answer of an operation can be, and the result words as numbers: the lemmas a statement about `exec` cites
in place of unfolding a meaning. -/

namespace Sys2Proof.Machine

/-! ### Patterns and result words as numbers -/

theorem half_toNat (lo hi : Byte) : (half lo hi).toNat = lo.toNat + 256 * hi.toNat := by
  have h := append_toNat hi lo
  rw [half, h]; omega

theorem word_toNat (b0 b1 b2 b3 : Byte) : (word b0 b1 b2 b3).toNat = le32 b0 b1 b2 b3 := by
  have h1 := append_toNat (b3 ++ b2 ++ b1) b0
  have h2 := append_toNat (b3 ++ b2) b1
  have h3 := append_toNat b3 b2
  rw [h3] at h2
  rw [h2] at h1
  refine h1.trans ?_
  unfold le32; omega

theorem verifyData_toNat (expected stored : Half) :
    (verifyData expected stored).toNat = expected.toNat * 2 ^ 16 + stored.toNat := append_toNat expected stored

theorem decinvData_toNat (telem first : Bool) (n : Nat) (h : n ≤ 48) :
    (decinvData telem first n).toNat = n + (if first then 256 else 0) + (if telem then 512 else 0) := by
  have hn : (BitVec.ofNat 6 n).toNat = n := by simp; omega
  have h0 : (0#22 ++ BitVec.ofBool telem ++ BitVec.ofBool first ++ 0#2).toNat
      = (if first then 4 else 0) + (if telem then 8 else 0) := by cases telem <;> cases first <;> rfl
  have h1 := append_toNat (0#22 ++ BitVec.ofBool telem ++ BitVec.ofBool first ++ 0#2) (BitVec.ofNat 6 n)
  rw [h0, hn] at h1
  refine h1.trans ?_
  cases telem <;> cases first <;> simp <;> omega

/-- A byte of a buffer through the checked index. -/
theorem byteAt_eq_getElem? {n : Nat} (b : Vector Byte n) (off : Nat) : byteAt b off = (b[off]?).getD 0 := by
  by_cases h : off < n
  · rw [byteAt_of_lt _ _ h, Vector.getElem?_eq_getElem h]; rfl
  · rw [Vector.getElem?_eq_none (by omega)]; simp [byteAt, Vector.getD, h]

/-! ### What `exec` gives -/

/-- The one next state of an operation, read back from an equation. -/
theorem exec_next_inv {i : Instr} {s t : State} (h : exec i s = .next t) :
    t.codec = nextCodec s.codec (opResult hardware i s.codec) ∧ t.pending = s.pending ∧
    t.rsps = s.rsps ++ [responseOf (opResult hardware i s.codec)] := by
  rw [exec_eq_deliver, deliver_eq] at h
  cases h
  exact ⟨rfl, rfl, rfl⟩

/-- The operations that classify first end as the classifier ends (R122, R113, R142). -/
theorem answers_of_classify_error (s : State) (i : Instr) (hi : i = .classify ∨ i = .verify ∨ i = .decinv) (st : Status)
    (h : classifyFrame hardware s.codec = .error st) : Answers i s s.codec st 0 := by
  rw [answers_iff]
  rcases hi with rfl | rfl | rfl <;> simp [opResult, classifyOp, verifyOp, decinvOp, h]

/-! ### `DECINV` in the terms of the claims -/

theorem frameTelem_iff (k : Codec) : frameTelem k.rx = true ↔ HasTelemetry k := by
  simp [frameTelem, HasTelemetry, frameFlags]

theorem frameFirst_iff (k : Codec) : frameFirst k.rx = true ↔ FirstFrame k := by
  simp [frameFirst, FirstFrame]

theorem telemSize_eq_ite (k : Codec) : telemSize k.rx = if HasTelemetry k then 8 else 0 := by
  rw [telemSize_eq]; simp only [frameTelem_iff]

theorem dataStart_eq_ite (k : Codec) : dataStart k.rx = if FirstFrame k then 26 else 14 := by
  rw [dataStart_eq]; simp only [frameFirst_iff]

theorem idLength_eq_infoLen (k : Codec) : idLength k.rx = 4 * (infoLen k : Int) - 16 - (telemSize k.rx : Int) := by
  rw [idLength_eq]; rfl

/-- The bounds test is the table of accepted info lengths (R146). -/
theorem idInRange_iff_accepted (k : Codec) : idOutOfRange k.rx = false ↔ AcceptedLength k := by
  rw [idOutOfRange_eq_false_iff, idStart_eq, idLength_eq_infoLen, telemSize_eq_ite, dataStart_eq_ite, AcceptedLength]
  split_ifs <;> omega

theorem decinvOp_of_admitted (k : Codec) (h : Admitted k) : decinvOp hardware k = decodeFrame k := by
  rcases h with h | h <;> simp [decinvOp, (classifyFrame_eq_ok_iff _ _).mpr h]

/-- Everything an `OK` answer of `DECINV` says. -/
theorem decinv_ok_inv {s : State} {k : Codec} {d : Word} (h : Answers .decinv s k .ok d) :
    Admitted s.codec ∧ crcFlagged s.codec.rx = false ∧ idOutOfRange s.codec.rx = false ∧
    k = s.codec.setTr (commitRecord s.codec.rx s.codec.tr) ∧
    d = decinvData (frameTelem s.codec.rx) (frameFirst s.codec.rx) (idLength s.codec.rx).toNat := by
  rw [answers_iff] at h
  obtain ⟨h1, h2⟩ := h
  simp only [opResult] at h1 h2
  rcases decinvOp_cases s.codec with ⟨-, e⟩ | ⟨-, e⟩ | ⟨_, -, -, -, e⟩ | ⟨t, hf, ht, ⟨-, e⟩ | ⟨-, -, e⟩ | ⟨a, b, e⟩⟩ <;>
    rw [e] at h1 h2 <;> simp at h1 h2
  refine ⟨?_, a, b, h1.symm, h2.symm⟩
  rcases ht with rfl | rfl
  · exact .inl hf
  · exact .inr hf

/-- When `DECINV` completes, and with what (R141, R147). -/
theorem decinv_ok_of (s : State) (h : Admitted s.codec) (hc : crcFlagged s.codec.rx = false)
    (hb : idOutOfRange s.codec.rx = false) :
    Answers .decinv s (s.codec.setTr (commitRecord s.codec.rx s.codec.tr)) .ok
      (decinvData (frameTelem s.codec.rx) (frameFirst s.codec.rx) (idLength s.codec.rx).toNat) := by
  rw [answers_iff]
  simp [opResult, decinvOp_of_admitted _ h, decodeFrame, hc, hb]

/-- The identifier register after a commit in range (R31, R141, R146). -/
theorem commitRecord_identifier (k : Codec) (hb : idOutOfRange k.rx = false) (tr : TagRecord) :
    ((commitRecord k.rx tr).epclen.toNat : Int) = idLength k.rx ∧
    (∀ i, (h : i < 48) → i < (commitRecord k.rx tr).epclen.toNat →
      k.rx[idStart k.rx + i]? = some (commitRecord k.rx tr).epc[i]) ∧
    (∀ i, (h : i < 48) → (commitRecord k.rx tr).epclen.toNat ≤ i → (commitRecord k.rx tr).epc[i] = 0) := by
  obtain ⟨n, h1, h2, h3, h4⟩ := idLength_of_inRange _ hb
  obtain ⟨-, e1, e2⟩ := commitRecord_id k.rx tr
  simp only [e1, e2]
  have hn : (BitVec.ofInt 6 (idLength k.rx)).toNat = n := by rw [h1]; simp; omega
  rw [hn]
  refine ⟨h1.symm, fun i hi hl => ?_, fun i hi hl => ?_⟩
  · rw [Vector.getElem?_eq_getElem (by omega)]
    simp only [idBytes, Vector.getElem_ofFn, h1]
    rw [if_pos (by omega), byteAt_of_lt _ _ (by omega)]
  · simp only [idBytes, Vector.getElem_ofFn, h1]
    rw [if_neg (by omega)]

end Sys2Proof.Machine
end

