-- ==== Sys2Proof/Laws/Packer.lean ====
section
/-! SUPPORT. The packer: appending is what `Appended` says, and it refines the unbounded sequence of R24. -/

namespace Sys2Proof.Machine

theorem append1_appended (b : Byte) (k : Codec) (h : k.plen.toNat ≤ 8) : Appended k (append1 b k) [b] := by
  by_cases hl : k.plen.toNat < 8
  · obtain ⟨h1, h2, h3⟩ := append1_of_lt b k hl
    refine ⟨by rw [h1, List.length_singleton]; omega, fun i hi => ?_, ?_, append1_frame b k⟩
    · rw [h3 i hi, List.length_singleton]
      by_cases hc : i = k.plen.toNat
      · rw [if_pos hc, if_pos (by omega), show i - k.plen.toNat = 0 by omega]; rfl
      · rw [if_neg hc, if_neg (by omega)]
    · rw [h2, List.length_singleton, show decide (8 < k.plen.toNat + 1) = false by simp; omega, Bool.or_false]
  · rw [append1_of_ge b k (by omega)]
    refine ⟨?_, fun i hi => ?_, ?_, rfl⟩
    · rw [List.length_singleton, Codec.setPacker_plen]; omega
    · rw [List.length_singleton, if_neg (by omega)]; rfl
    · rw [List.length_singleton, show decide (8 < k.plen.toNat + 1) = true by simp; omega, Bool.or_true]; rfl

/-- Appending one run of bytes and then another is appending both. -/
theorem Appended.trans {k k' k'' : Codec} {as bs : List Byte} (hle : k.plen.toNat ≤ 8) (h : Appended k k' as)
    (h' : Appended k' k'' bs) : Appended k k'' (as ++ bs) := by
  obtain ⟨a1, a2, a3, a4⟩ := h
  obtain ⟨b1, b2, b3, b4⟩ := h'
  refine ⟨by rw [b1, a1, List.length_append]; omega, fun i hi => ?_, ?_, ?_⟩
  · rw [b2 i hi, a2 i hi, a1, List.length_append]
    simp only [List.getD_eq_getElem?_getD, List.getElem?_append]
    by_cases c1 : i < k.plen.toNat
    · rw [if_neg (by omega), if_neg (by omega), if_neg (by omega)]
    · by_cases c2 : i < k.plen.toNat + as.length
      · rw [if_neg (by omega), if_pos (by omega), if_pos (by omega), if_pos (by omega)]
      · by_cases c3 : i < k.plen.toNat + as.length + bs.length
        · rw [if_pos (by omega), if_pos (by omega), if_neg (by omega)]
          congr 2; omega
        · rw [if_neg (by omega), if_neg (by omega), if_neg (by omega)]
  · rw [b3, a3, a1, List.length_append]
    by_cases c : 8 < k.plen.toNat + as.length
    · have : 8 < k.plen.toNat + (as.length + bs.length) := by omega
      simp [c, this]
    · have e : min (k.plen.toNat + as.length) 8 = k.plen.toNat + as.length := by omega
      simp [c, e, Nat.add_assoc]
  · rw [b4, a4]

/-- Everything appending does to the codec. -/
theorem appendBytes_appended (bs : List Byte) (k : Codec) (h : k.plen.toNat ≤ 8) : Appended k (appendBytes bs k) bs := by
  induction bs generalizing k with
  | nil =>
    refine ⟨by simp; omega, fun i hi => ?_, by simp; omega, rfl⟩
    rw [if_neg (by simp)]; rfl
  | cons b bs ih =>
    have h1 := append1_appended b k h
    have h2 := ih (append1 b k) (by rw [h1.1]; omega)
    exact h1.trans h h2

/-- Appending extends the unbounded sequence the registers stand for (R24). -/
theorem StandsFor.append {k k' : Codec} {p bs : List Byte} (h : StandsFor k p) (ha : Appended k k' bs) :
    StandsFor k' (p ++ bs) := by
  obtain ⟨h1, h2, h3⟩ := h
  obtain ⟨a1, a2, a3, -⟩ := ha
  refine ⟨by rw [a1, h1, List.length_append]; omega, fun i hi => ?_, ?_⟩
  · rw [a2 i hi, h2 i hi, h1]
    simp only [List.length_append, List.getElem_append, List.getD_eq_getElem?_getD]
    by_cases hp : i < p.length
    · rw [if_neg (by omega), dif_pos hp, dif_pos (by omega), dif_pos hp]
    · by_cases hq : i < p.length + bs.length
      · rw [if_pos (by omega), dif_pos hq, dif_neg hp]
        have : min p.length 8 = p.length := by omega
        rw [this, List.getElem?_eq_getElem (by omega)]; rfl
      · rw [if_neg (by omega), dif_neg hp, dif_neg hq]
  · rw [a3, h3, h1, List.length_append]
    by_cases hp : 8 < p.length
    · have : 8 < p.length + bs.length := by omega
      simp [hp, this]
    · have : min p.length 8 = p.length := by omega
      simp [hp, this]

/-- `POVF` is sticky under appending (R23). -/
theorem appendBytes_povf (bs : List Byte) (k : Codec) (h : k.povf = true) : (appendBytes bs k).povf = true := by
  induction bs generalizing k with
  | nil => exact h
  | cons b bs ih =>
    rw [appendBytes_cons]
    apply ih
    unfold append1
    split <;> simp [h]

theorem StandsFor.plen_le {k : Codec} {p : List Byte} (h : StandsFor k p) : k.plen.toNat ≤ 8 := by
  rw [h.1]; exact Nat.min_le_right _ _

/-- The packed bytes are the sequence, where it fits (R24, R110). -/
theorem StandsFor.packedBytes {k : Codec} {p : List Byte} (h : StandsFor k p) (hp : p.length ≤ 8) :
    packedBytes k = p := by
  obtain ⟨h1, h2, -⟩ := h
  apply List.ext_getElem
  · simp [Machine.packedBytes, h1]; omega
  · intro i hi hi'
    have hi8 : i < 8 := by omega
    simp only [Machine.packedBytes, List.getElem_take, Vector.getElem_toList, h2 i hi8, dif_pos hi']

@[simp] theorem leBytes_one (v : Byte) : leBytes 1 v = [v] := by
  simp [leBytes, byteSlice, List.range_succ]

theorem leBytes_two (v : Half) : leBytes 2 v = [BitVec.ofNat 8 v.toNat, BitVec.ofNat 8 (v.toNat / 256)] := by
  simp [leBytes, byteSlice, List.range_succ, ← BitVec.toNat_inj, Nat.shiftRight_eq_div_pow]

theorem leBytes_four (v : Word) : leBytes 4 v =
    [BitVec.ofNat 8 v.toNat, BitVec.ofNat 8 (v.toNat / 2 ^ 8), BitVec.ofNat 8 (v.toNat / 2 ^ 16),
     BitVec.ofNat 8 (v.toNat / 2 ^ 24)] := by
  simp [leBytes, byteSlice, List.range_succ, ← BitVec.toNat_inj, Nat.shiftRight_eq_div_pow]

/-- A pack operation appends its bytes and answers `OK` (R101 to R103). -/
theorem opResult_of_pack (c : Config) {i : Instr} {bs : List Byte} (h : packOf i = some bs) (k : Codec) :
    opResult c i k = .complete (appendBytes bs k) 0 := by
  cases i <;> simp only [packOf, Option.some.injEq, reduceCtorEq] at h <;>
    simp only [opResult, packOp, leBytes_one, leBytes_two, leBytes_four, ← h]

/-- A run of packs ends, and appends its bytes in order. -/
theorem runOps_packs {is : List Instr} {bs : List Byte} (h : PacksInOrder is bs) (s : State) :
    ∃ t, runOps is s = .next t ∧ t.codec = appendBytes bs s.codec := by
  obtain ⟨hp, rfl⟩ := h
  induction is generalizing s with
  | nil => exact ⟨s, rfl, rfl⟩
  | cons i is ih =>
    obtain ⟨b, hb⟩ := Option.isSome_iff_exists.mp (hp i (List.mem_cons_self ..))
    obtain ⟨t, ht, hk⟩ := ih { codec := appendBytes b s.codec, pending := s.pending, rsps := s.rsps ++ [⟨.ok, 0⟩] }
      (fun j hj => hp j (List.mem_cons_of_mem _ hj))
    refine ⟨t, ?_, ?_⟩
    · rw [runOps, exec_eq_deliver, opResult_of_pack _ hb, deliver_eq]
      exact ht
    · rw [hk, List.flatMap_cons, hb, Option.getD_some, appendBytes_append]

end Sys2Proof.Machine
end

