-- ==== Sys2Proof/Laws/PerInstr.lean ====
section
/-! SUPPORT. The family "the encoder writes the row's operation code and only the argument bits the row names", one lemma per
operation (`30_encoding.md` rules R80, R87). -/

namespace Sys2Proof.Laws.EncodesItsRow

/-- The word of `i` has `i`'s operation code in its `op` field and is written as the listings write it. -/
def Statement (i : Instr) : Prop := opField (encode i) = i.op ∧ (encode i).canonical = true

/-- An operation whose argument is below the bound of its row is written canonically. -/
theorem of_arg_lt (i : Instr) (hop : i.op.toNat < 16) (harg : i.arg.toNat < 2 ^ usedArgBits i.op.toNat) : Statement i := by
  refine ⟨opField_encode i, ?_⟩
  have h1 : (encode i).toNat / 2 ^ 32 = i.op.toNat := by rw [← opField_toNat, opField_encode]
  have h2 : (encode i).toNat % 2 ^ 32 = i.arg.toNat := by rw [← argField_toNat, argField_encode]
  simp only [CmdWord.canonical, CmdWord.selectsOp, CmdWord.unusedArgZero, h1, h2, Bool.and_eq_true, decide_eq_true_eq]
  exact ⟨hop, harg⟩

theorem setWidth_lt (v : Byte) : (v.setWidth 32 : Word).toNat < 2 ^ 8 := by
  have := v.isLt
  simp; omega

theorem orderArg_lt (off : Byte) (le : Bool) : (0#23 ++ BitVec.ofBool le ++ off : Word).toNat < 2 ^ 9 := by
  have h := off.isLt
  rw [orderArg_toNat]
  cases le <;> simp <;> omega

theorem pbrst : Statement .pbrst := of_arg_lt _ (by decide) (by decide)
theorem packb (v : Byte) : Statement (.packb v) := of_arg_lt _ (by simp [Instr.op]) (setWidth_lt v)
theorem packs (v : Half) : Statement (.packs v) :=
  of_arg_lt _ (by simp [Instr.op]) (by have := v.isLt; simp [Instr.arg, Instr.op, usedArgBits]; omega)
theorem packi (v : Word) : Statement (.packi v) := of_arg_lt _ (by simp [Instr.op]) v.isLt
theorem compose (opcode : Byte) : Statement (.compose opcode) := of_arg_lt _ (by simp [Instr.op]) (setWidth_lt opcode)
theorem rxclr : Statement .rxclr := of_arg_lt _ (by decide) (by decide)
theorem rxpush (b : Byte) : Statement (.rxpush b) := of_arg_lt _ (by simp [Instr.op]) (setWidth_lt b)
theorem classify : Statement .classify := of_arg_lt _ (by decide) (by decide)
theorem opcodeof : Statement .opcodeof := of_arg_lt _ (by decide) (by decide)
theorem verify : Statement .verify := of_arg_lt _ (by decide) (by decide)
theorem trclr : Statement .trclr := of_arg_lt _ (by decide) (by decide)
theorem decinv : Statement .decinv := of_arg_lt _ (by decide) (by decide)
theorem rdb (off : Byte) : Statement (.rdb off) := of_arg_lt _ (by simp [Instr.op]) (setWidth_lt off)
theorem rds (off : Byte) (le : Bool) : Statement (.rds off le) := of_arg_lt _ (by simp [Instr.op]) (orderArg_lt off le)
theorem rdi (off : Byte) (le : Bool) : Statement (.rdi off le) := of_arg_lt _ (by simp [Instr.op]) (orderArg_lt off le)
theorem rdver (off : Byte) : Statement (.rdver off) := of_arg_lt _ (by simp [Instr.op]) (setWidth_lt off)

end Sys2Proof.Laws.EncodesItsRow
end

