-- ==== Sys2Proof/Laws/Step.lean ====
section
/-! SUPPORT. What one step can do: the one inversion lemma of the step, from which invariants follow. -/

namespace Sys2Proof.Machine

/-- A reserved operation code is rejected by name. -/
theorem decode_of_reserved (w : CmdWord) (h : 16 ≤ w.toNat / 2 ^ 32) : decode w = .error (.illegalOp (opField w)) := by
  rw [← opField_toNat] at h
  unfold decode; split <;> first | omega | rfl

/-- A command word on the port is answered by R12's function. -/
theorem step_of_command (s : State) (w : CmdWord) (rest : List HostInput) (h : s.pending = .command w :: rest) :
    step s = .next { codec := (codecStep hardware w s.codec).1, pending := rest,
                     rsps := s.rsps ++ [(codecStep hardware w s.codec).2] } := by
  simp only [step, stepPort, h, serve, serveWord, codecStep, wordResult]
  cases decode w with
  | ok i => simp [exec_eq_deliver, deliver_eq]
  | error e => cases e; simp [deliver_eq]

theorem step_of_reset (s : State) (rest : List HostInput) (h : s.pending = .reset :: rest) :
    step s = .next { codec := Codec.reset, pending := rest, rsps := s.rsps } := by
  simp [step, stepPort, h, serve, State.withPending, State.withReset]

theorem step_of_idle (s : State) (h : s.pending = []) : step s = .next s := by
  simp [step, stepPort, h]

/-- Everything a step can do: nothing, a reset, or the answer to one command word. -/
theorem step_cases {s t : State} (h : step s = .next t) :
    (s.pending = [] ∧ t = s) ∨
    (∃ rest, s.pending = .reset :: rest ∧ t = { codec := Codec.reset, pending := rest, rsps := s.rsps }) ∨
    (∃ w rest, s.pending = .command w :: rest ∧
      t = { codec := (codecStep hardware w s.codec).1, pending := rest,
            rsps := s.rsps ++ [(codecStep hardware w s.codec).2] }) := by
  match hp : s.pending with
  | [] => rw [step_of_idle s hp] at h; cases h; exact .inl ⟨rfl, rfl⟩
  | .reset :: rest => rw [step_of_reset s rest hp] at h; cases h; exact .inr (.inl ⟨rest, rfl, rfl⟩)
  | .command w :: rest => rw [step_of_command s w rest hp] at h; cases h; exact .inr (.inr ⟨w, rest, rfl, rfl⟩)

/-- The codec after a command word: untouched, or the one an operation completed with. -/
theorem codecStep_cases (c : Config) (w : CmdWord) (k : Codec) :
    (codecStep c w k).1 = k ∨ ∃ i d, decode w = .ok i ∧ opResult c i k = .complete (codecStep c w k).1 d := by
  unfold codecStep wordResult
  cases hd : decode w with
  | error e => cases e; exact .inl rfl
  | ok i =>
    cases hr : opResult c i k with
    | raise st d => simp [hr]
    | complete k' d => exact .inr ⟨i, d, rfl, by simp [hr]⟩

/-- The next state of an instance whose host has issued a command word. -/
theorem nextState_of_command (s : State) (w : CmdWord) (rest : List HostInput) (h : s.pending = .command w :: rest) :
    nextState s = { codec := (codecStep hardware w s.codec).1, pending := rest,
                    rsps := s.rsps ++ [(codecStep hardware w s.codec).2] } := by
  rw [nextState, step_of_command s w rest h]

end Sys2Proof.Machine
end

