-- ==== Sys2Proof/Tests/Slice0.lean ====
section
/-! SUPPORT. Tests of the model and witnesses of the statements. The expected results are those of `95_test_vectors.md`, whose
number (V-..) each test names; the vectors use the test configuration T0 of that file, which the model itself knows nothing of. -/

namespace Sys2Proof.Tests
open Sys2Proof.Machine

/-! ### The test configuration T0 (`95_test_vectors.md` section 0) -/

/-- T0's tags. -/
def tagT0 : FrameType → Byte
  | .command => 0x43 | .response => 0x52 | .beginFrame => 0x42 | .inventory => 0x49
  | .access => 0x41 | .endFrame => 0x45 | .work => 0x57

/-- T0: its checksum is the sum of the bytes. -/
def T0 : Config where
  nCmds := 3
  magic := #v[0x43, 0x49, 0x54, 0x4D]
  tag := tagT0
  opcodeTable := fun b => if b = 0x01 then some 0 else if b = 0x8A then some 1 else if b = 0xFF then some 2 else none
  crc16 := fun bytes => BitVec.ofNat 16 (bytes.map BitVec.toNat).sum
  versionRender := fun _ _ _ => ""

theorem test_T0_wellFormed : T0.WellFormed := by
  refine ⟨rfl, fun a b h => ?_⟩
  cases a <;> cases b <;> first | rfl | exact absurd h (by decide)

/-- `n` bytes, zero but at the places listed. -/
def bytesAt (places : List (Nat × Byte)) (n : Nat) : List Byte := (List.range n).map fun i => (places.lookup i).getD 0

/-- The reset codec with these bytes received. -/
def loaded (bytes : List Byte) : Codec :=
  { Codec.reset with rx := Vector.ofFn fun i => bytes.getD i 0, rxlen := BitVec.ofNat 7 (min bytes.length 65) }

/-- The reset codec with these parameter bytes packed. -/
def packed (bytes : List Byte) : Codec :=
  { Codec.reset with pb := Vector.ofFn fun i => bytes.getD i 0, plen := BitVec.ofNat 4 (min bytes.length 8),
                     povf := decide (8 < bytes.length) }

/-- The codec after one operation under T0, and its response. -/
def after (i : Instr) (k : Codec) : Codec := nextCodec k (opResult T0 i k)

/-- See `after`. -/
def answer (i : Instr) (k : Codec) : Response := responseOf (opResult T0 i k)

/-- The Response frame of section 2.6. -/
def frameR : List Byte :=
  [0x52, 0, 0, 0, 0xFF, 0x8A, 0, 0, 0x01, 0x02, 0x03, 0xFE, 0xFF, 0xFF, 0xFF, 0x80]

/-- The Command frame of V-C1. -/
def frameC1 : List Byte := [0x43, 0x49, 0x54, 0x4D, 0xFF, 0x8A, 0, 0, 0, 0, 0, 0, 0, 0, 0x49, 0xFD]

/-- Frame F3 (V-D3). -/
def frame3 : List Byte :=
  bytesAt [(0, 0x49), (5, 0x01), (7, 0x0A), (10, 0x08), (22, 0x38), (23, 0xFF), (26, 0x03), (27, 0xE5), (28, 0xF6),
    (29, 0xAA), (30, 0x32), (31, 0xF7), (32, 0x0D), (36, 0xE2), (38, 0x12), (39, 0x34), (40, 0x56), (41, 0x78),
    (42, 0x9A), (43, 0xBC)] 64

/-- Frame F4 (V-D4). -/
def frame4 : List Byte :=
  bytesAt [(0, 0x49), (5, 0xFF), (7, 0x0A), (10, 0x06), (14, 0x01), (15, 0x7F), (16, 0x80), (18, 0xFE), (19, 0xFF),
    (20, 0xFF), (21, 0xFF)] 64

/-! ### Decoding: the words of the spec's listings, one or two per operation (section 3, V-P.., V-X..) -/

theorem test_decode_pbrst : decode 0x0000000000 = .ok .pbrst := by decide
theorem test_decode_packb : decode 0x01ABCDEF12 = .ok (.packb 0x12) := by decide
theorem test_decode_packs : decode 0x020000BBAA = .ok (.packs 0xBBAA) := by decide
theorem test_decode_packi : decode 0x0389ABCDEF = .ok (.packi 0x89ABCDEF) := by decide
theorem test_decode_compose : decode 0x04ABCDEFFF = .ok (.compose 0xFF) := by decide
theorem test_decode_rxclr : decode 0x0500000000 = .ok .rxclr := by decide
theorem test_decode_rxpush : decode 0x0600000049 = .ok (.rxpush 0x49) := by decide
theorem test_decode_classify : decode 0x0700000000 = .ok .classify := by decide
theorem test_decode_opcodeof : decode 0x0800000000 = .ok .opcodeof := by decide
theorem test_decode_verify : decode 0x0900000000 = .ok .verify := by decide
theorem test_decode_trclr : decode 0x0A00000000 = .ok .trclr := by decide
theorem test_decode_decinv : decode 0x0BFFFFFFFF = .ok .decinv := by decide
theorem test_decode_rdb : decode 0x0C000000FF = .ok (.rdb 255) := by decide
theorem test_decode_rds_le : decode 0x0DFFFFFF09 = .ok (.rds 9 true) := by decide
theorem test_decode_rds_be : decode 0x0D00000009 = .ok (.rds 9 false) := by decide
theorem test_decode_rdi_le : decode 0x0E0000010B = .ok (.rdi 11 true) := by decide
theorem test_decode_rdi_be : decode 0x0E00000008 = .ok (.rdi 8 false) := by decide
theorem test_decode_rdver : decode 0x0F0000000D = .ok (.rdver 13) := by decide
theorem test_decode_reserved : decode 0x1000000000 = .error (.illegalOp 0x10) ∧
    decode 0xFFFFFFFFFF = .error (.illegalOp 0xFF) := by decide

/-- The encoder writes the listing's words (P1, P3, P4). -/
theorem test_encode : encode (.rds 9 true) = 0x0D00000109 ∧ encode (.packi 0x0A090807) = 0x030A090807 ∧
    encode (.compose 0x8A) = 0x040000008A := by decide

theorem test_decodeTableWord : decodeTableWord 40 0x0E0000010B = some (.rdi 11 true) ∧
    decodeTableWord 40 0x1012345678 = none ∧ decodeTableWord 48 0x010000000000 = none := by decide

/-! ### Well-formedness: each check refuses an ill-formed word -/

/-- `op` 0x10 is reserved (R83). -/
theorem test_selectsOp_refuses : CmdWord.selectsOp 0x1000000000 = false ∧ CmdWord.selectsOp 0x0F00000000 = true := by decide

/-- Bits an operation does not name are not written as listings write them (R87). -/
theorem test_unusedArgZero_refuses : CmdWord.unusedArgZero 0x00FFFFFFFF = false ∧
    CmdWord.unusedArgZero 0x0D00000200 = false ∧ CmdWord.unusedArgZero 0x0D000001FF = true := by decide

theorem test_canonical_refuses : CmdWord.canonical 0x1000000000 = false ∧ CmdWord.canonical 0x0C00000100 = false ∧
    CmdWord.canonical 0x0C000000FF = true := by decide

/-- A tag map with two equal tags does not meet R6. -/
theorem test_config_refuses : ¬ Config.WellFormed { T0 with tag := fun _ => 0x43 } := by
  intro h
  exact absurd (h.2 (a₁ := .command) (a₂ := .work) rfl) (by decide)

/-! ### One operation under T0 -/

/-- V-P6. -/
theorem test_pbrst : after .pbrst (packed [1, 2, 3, 4, 5, 6, 7, 8, 9]) = Codec.reset := by decide

/-- V-P1. -/
theorem test_packb_stores : after (.packb 0x12) Codec.reset = packed [0x12] := by decide
/-- V-P5. -/
theorem test_packb_drops : after (.packb 0x77) (packed [1, 2, 3, 4, 5, 6, 7, 8]) = packed [1, 2, 3, 4, 5, 6, 7, 8, 0x77] ∧
    answer (.packb 0x77) (packed [1, 2, 3, 4, 5, 6, 7, 8]) = ⟨.ok, 0⟩ := by decide

/-- V-P2. -/
theorem test_packs_order : after (.packs 0x3456) (packed [0x12]) = packed [0x12, 0x56, 0x34] := by decide
/-- V-P4. -/
theorem test_packs_drops_high : after (.packs 0xBBAA) (packed [0x12, 0x56, 0x34, 0xEF, 0xCD, 0xAB, 0x89])
    = packed [0x12, 0x56, 0x34, 0xEF, 0xCD, 0xAB, 0x89, 0xAA, 0xBB] := by decide

/-- V-P3. -/
theorem test_packi_order : after (.packi 0x89ABCDEF) (packed [0x12, 0x56, 0x34])
    = packed [0x12, 0x56, 0x34, 0xEF, 0xCD, 0xAB, 0x89] := by decide
/-- V-P12. -/
theorem test_packi_drops_two : after (.packi 0x0A090807) (packed [1, 2, 3, 4, 5, 6])
    = packed [1, 2, 3, 4, 5, 6, 7, 8, 9, 10] := by decide

/-- V-C2. -/
theorem test_compose_frame :
    (after (.compose 0x01) (packed [0x12, 0x56, 0x34, 0xEF, 0xCD, 0xAB, 0x89])).tx.toList =
      [0x43, 0x49, 0x54, 0x4D, 0xFF, 0x01, 0x12, 0x56, 0x34, 0xEF, 0xCD, 0xAB, 0x89, 0x00, 0x46, 0xFA] := by decide
/-- V-C5. -/
theorem test_compose_rejects :
    after (.compose 0x8A) (packed [1, 2, 3, 4, 5, 6, 7, 8, 9]) = packed [1, 2, 3, 4, 5, 6, 7, 8, 9] ∧
    answer (.compose 0x8A) (packed [1, 2, 3, 4, 5, 6, 7, 8, 9]) = ⟨.parameterOverflow, 0⟩ := by decide

theorem test_rxclr : after .rxclr (loaded frameR) = Codec.reset := by decide

/-- V-K15. -/
theorem test_rxpush_appends : (after (.rxpush 0x43) (loaded frameC1)).rxlen = 17 ∧
    (after (.rxpush 0x43) (loaded frameC1)).rx[16] = 0x43 := by decide
/-- V-K14: the 65th byte is dropped, and the length stays at 65 from then on. -/
theorem test_rxpush_saturates : after (.rxpush 0xAA) (loaded (List.replicate 64 0xAA)) = loaded (List.replicate 65 0xAA) ∧
    after (.rxpush 0xAA) (loaded (List.replicate 65 0xAA)) = loaded (List.replicate 65 0xAA) := by decide

/-- V-K5. -/
theorem test_classify_access : answer .classify (loaded (bytesAt [(0, 0x41)] 64)) = ⟨.ok, 0x00004004⟩ := by decide
/-- V-K9. -/
theorem test_classify_too_long : answer .classify (loaded (bytesAt [(0, 0x49)] 65)) = ⟨.truncatedFrame, 0⟩ := by decide

/-- V-O3. -/
theorem test_opcodeof_unsigned : answer .opcodeof (loaded [0x43, 0x49, 0x54, 0x4D, 0xFF, 0xFF]) = ⟨.ok, 0xFF⟩ := by decide
/-- V-O2, V-O5. -/
theorem test_opcodeof_fails : answer .opcodeof (loaded [0x43, 0x49, 0x54, 0x4D, 0xFF, 0x02]) = ⟨.unknownOpcode, 2⟩ ∧
    answer .opcodeof (loaded [0x43, 0x49, 0x54, 0x4D, 0xFF]) = ⟨.truncatedFrame, 0⟩ := by decide

/-- V-V1. -/
theorem test_verify_ok : answer .verify (loaded frameC1) = ⟨.ok, 0xFD49FD49⟩ := by decide
/-- V-V3. -/
theorem test_verify_mismatch :
    answer .verify (loaded [0x43, 0x49, 0x54, 0x4D, 0xFF, 0x8A, 0, 0, 0, 0, 0, 0, 0, 0, 0xFD, 0x49])
      = ⟨.checksumMismatch, 0xFD4949FD⟩ := by decide

/-- V-D28. -/
theorem test_trclr : (after .trclr (after .decinv (loaded frame3))).tr = TagRecord.empty := by decide

/-- V-D3. -/
theorem test_decinv_first_with_telemetry : answer .decinv (loaded frame3) = ⟨.ok, 0x00000308⟩ ∧
    (after .decinv (loaded frame3)).tr =
      { epc := Vector.ofFn fun i => [0xE2, 0x00, 0x12, 0x34, 0x56, 0x78, 0x9A, 0xBC].getD i 0, epclen := 8, crcValid := true
        rssi := 0xFF38, rssiV := true, port := 3, portV := true, phase := 0x25, phaseV := true, temp := 0xF6, tempV := true
        freq := 0x000DF732, freqV := true } := by decide
/-- V-D4: RSSI kept on a continuation frame, empty identifier. -/
theorem test_decinv_continuation_with_telemetry :
    let k : Codec := { loaded frame4 with tr := { TagRecord.empty with rssi := 0xFFF9, rssiV := true } }
    answer .decinv k = ⟨.ok, 0x00000200⟩ ∧
    (after .decinv k).tr =
      { TagRecord.empty with
        crcValid := true, rssi := 0xFFF9, rssiV := true, port := 1, portV := true, phase := 63, phaseV := true
        temp := 0x80, tempV := true, freq := 0xFFFFFFFE, freqV := true } := by decide

/-- V-R2, V-R4. -/
theorem test_rdb : answer (.rdb 5) (loaded frameR) = ⟨.ok, 0x8A⟩ ∧ answer (.rdb 16) (loaded frameR) = ⟨.truncatedFrame, 0⟩ := by
  decide
/-- V-R9, V-R10. -/
theorem test_rds : answer (.rds 14 true) (loaded frameR) = ⟨.ok, 0xFFFF80FF⟩ ∧
    answer (.rds 14 false) (loaded frameR) = ⟨.ok, 0xFFFFFF80⟩ := by decide
/-- V-R12, V-R13. -/
theorem test_rdi : answer (.rdi 8 true) (loaded frameR) = ⟨.ok, 0xFE030201⟩ ∧
    answer (.rdi 8 false) (loaded frameR) = ⟨.ok, 0x010203FE⟩ := by decide
/-- V-R16. -/
theorem test_rdi_truncated : answer (.rdi 13 true) (loaded frameR) = ⟨.truncatedFrame, 0⟩ := by decide
/-- V-R17, V-R19. -/
theorem test_rdver : answer (.rdver 8) (loaded frameR) = ⟨.ok, 0x00030201⟩ ∧
    answer (.rdver 14) (loaded frameR) = ⟨.truncatedFrame, 0⟩ := by decide

/-! ### The port, the host's text, the assembler -/

/-- The next state of a step, if it has one. -/
def nextOf : Host.Outcome State Fault Refusal → Option State
  | .next t => some t
  | .fault _ | .refused _ => none

/-- The word is the very next one served, and it is `RXPUSH`'s. -/
theorem test_withFetchWord : nextOf (step (State.reset.withFetchWord 40 0x0600000043)) =
    some { codec := loaded [0x43], pending := [], rsps := [⟨.ok, 0⟩] } := by decide

/-- V-X3. -/
theorem test_step_illegalOp : nextOf (step (State.reset.withFetchWord 40 0x1012345678)) =
    some { State.reset with rsps := [⟨.illegalOp, 0⟩] } := by decide

/-- A response word (R81). -/
theorem test_responseWord : responseWord ⟨.checksumMismatch, 0xFD48FD49⟩ = 0x5FD48FD49 := by decide

/-- Section 2.5, hex text. -/
theorem test_renderHex : renderHexChars true [0xDE, 0xAD, 0xBE, 0xEF] = "DE AD BE EF".toList ∧
    renderHexChars false [0x0A] = "0A".toList ∧ renderHexChars true [] = [] := by decide

/-- A run up to offset 255, and one past it (log 12). -/
theorem test_byteRun : byteRun 254 2 = some [.rdb 254, .rdb 255] ∧ byteRun 255 2 = none := by decide

/-- Lines of P1 and P4. -/
theorem test_parseLine : parseLine "RDS 9, BE ; comment".toList = some (.op (.rds 9 false)) ∧
    parseLine "CMD 0x8A, 1, 2".toList = some (.cmd 0x8A [1, 2]) ∧
    parseLine "PACKB 0x100".toList = none := by decide

theorem test_printLine : printLine (.packi 0x0A090807) = "PACKI 0x0A090807".toList ∧
    printWord (encode (.rds 9 true)) = "0D00000109".toList := by decide

/-! ### Witnesses: for every statement with hypotheses, states and operands that meet them together

The codec's own tags are opaque, so a frame of a type is built with `hardware.tag` of it as its first byte. -/

/-- A machine with this codec and these events on the port. -/
def machine (k : Codec) (pending : List HostInput) : State := { codec := k, pending := pending, rsps := [] }

/-- The reset codec with `n` bytes received: the tag of `t`, then zeros but at the places listed. -/
def received (t : FrameType) (n : Nat) (places : List (Nat × Byte)) : Codec :=
  { Codec.reset with
    rx := (Vector.ofFn fun i => (places.lookup i.val).getD 0).set 0 (hardware.tag t)
    rxlen := BitVec.ofNat 7 n }

/-- A 64-byte frame with this relative sequence, flags and info length. -/
def tagFrame (t : FrameType) (seq flags il : Byte) : Codec := received t 64 [(5, seq), (7, flags), (10, il)]

theorem received_tag (t : FrameType) (n : Nat) (places : List (Nat × Byte)) :
    (received t n places).rx[0] = hardware.tag t := by simp [received]

theorem received_holds (t : FrameType) (places : List (Nat × Byte)) :
    HoldsFrame (received t (declaredLength t) places) t :=
  ⟨received_tag _ _ _, by cases t <;> rfl⟩

theorem tagFrame_admitted (t : FrameType) (h : t = .inventory ∨ t = .access) (seq flags il : Byte) :
    Admitted (tagFrame t seq flags il) := by
  rcases h with rfl | rfl
  · exact .inl (received_holds .inventory _)
  · exact .inr (received_holds .access _)

theorem tagFrame_fields (t : FrameType) (seq flags il : Byte) :
    (tagFrame t seq flags il).rx[5] = seq ∧ (tagFrame t seq flags il).rx[7] = flags ∧
    (tagFrame t seq flags il).rx[10] = il ∧ (tagFrame t seq flags il).rx[11] = 0 := by
  simp [tagFrame, received, List.lookup]

/-- Whether a tag frame completes is a matter of its three bytes. -/
theorem tagFrame_decodes (t : FrameType) (h : t = .inventory ∨ t = .access) (seq flags il : Byte)
    (hv : flags.getLsbD 0 = false) (ha : AcceptedLength (tagFrame t seq flags il)) :
    ∃ k d, Answers .decinv (machine (tagFrame t seq flags il) []) k .ok d :=
  ⟨_, _, decinv_ok_of (machine (tagFrame t seq flags il) []) (tagFrame_admitted t h seq flags il)
    ((congrArg (BitVec.getLsbD · 0) (tagFrame_fields t seq flags il).2.1).trans hv) ((idInRange_iff_accepted _).mpr ha)⟩

/-- A byte that is no tag. -/
theorem noTag (t : FrameType) : hardware.tag t ≠ Param.tagPlace 7 := fun h =>
  absurd (Param.tagPlace.injective h) (by cases t <;> decide)

/-- The reset codec with `n` bytes received, the first of them no tag. -/
def unknownTag (n : Nat) : Codec :=
  { Codec.reset with rx := (Vector.replicate 64 0).set 0 (Param.tagPlace 7), rxlen := BitVec.ofNat 7 n }

theorem unknownTag_tag (n : Nat) : (unknownTag n).rx[0] = Param.tagPlace 7 := by simp [unknownTag]

/-! Encoding and the step. -/

/-- Every clause's `op`, with the least and the greatest argument: the word `op * 2 ^ 32 + arg`. -/
theorem witness_DecodeReadsTheOperationTable :
    ∀ op ∈ [0, 1, 2, 3, 4, 5, 6, 7, 8, 9, 10, 11, 12, 13, 14, 15, 16, 255], ∀ arg ∈ [0, 0xFFFFFFFF],
      (BitVec.ofNat 40 (op * 2 ^ 32 + arg)).toNat = op * 2 ^ 32 + arg ∧ arg < 2 ^ 32 := by
  have hops : ∀ n ∈ [0, 1, 2, 3, 4, 5, 6, 7, 8, 9, 10, 11, 12, 13, 14, 15, 16, 255], n < 256 := by decide
  intro op ho arg ha
  have h1 := hops op ho
  have h2 : arg < 2 ^ 32 := by
    simp only [List.mem_cons, List.not_mem_nil, or_false] at ha
    omega
  exact ⟨by rw [BitVec.toNat_ofNat, Nat.mod_eq_of_lt (by omega)], h2⟩

theorem witness_DecodeOfEncodeIsTheInstruction : (Instr.rds 255 true).wellFormed = true := rfl

theorem witness_EncodeOfDecodeIsTheWord : CmdWord.canonical 0x0E000001FF = true := by decide

theorem witness_UnnamedArgumentBitsAreIgnored :
    let w : CmdWord := 0x0D00000109
    let w' : CmdWord := 0x0DFFFFFF09
    w ≠ w' ∧ w.toNat / 2 ^ 32 = w'.toNat / 2 ^ 32 ∧
    w.toNat % 2 ^ usedArgBits (w.toNat / 2 ^ 32) = w'.toNat % 2 ^ usedArgBits (w.toNat / 2 ^ 32) := by decide

theorem witness_StepRunsTheDecodedInstruction :
    (machine Codec.reset [.command 0x01000000FF, .reset]).pending = .command 0x01000000FF :: [.reset] ∧
    decode 0x01000000FF = .ok (.packb 0xFF) ∧ (Instr.packb 0xFF).wellFormed = true := by decide

theorem witness_ReservedOperationAnswersIllegalOp :
    (∀ w, (machine Codec.reset [.command w]).pending = .command w :: []) ∧
    0x10 ≤ (0x1000000000 : CmdWord).toNat / 2 ^ 32 ∧ 0x10 ≤ (0xFFFFFFFFFF : CmdWord).toNat / 2 ^ 32 :=
  ⟨fun _ => rfl, by decide, by decide⟩

theorem witness_ResetEventAndIdleStep :
    (machine (packed [1]) [.reset]).pending = .reset :: [] ∧ (machine (packed [1]) []).pending = [] := ⟨rfl, rfl⟩

theorem witness_ExactlyOneNextStateAndResponse :
    (machine (packed [1]) [.command 0]).pending = .command 0 :: [] := rfl

theorem witness_MachineRunIsTheListOfCommandWordsApplied (w w' : CmdWord) :
    (machine Codec.reset [.command w, .command w', .reset]).pending = [w, w'].map HostInput.command ++ [.reset] := rfl

/-- A machine with a word at the head of its port; and two instances, one with two words to serve and one with a single one. -/
theorem witness_InstancesShareNothing (w w' : CmdWord) :
    (machine (packed [1]) [.command w, .reset]).codec = packed [1] ∧
    (machine (packed [1]) [.command w, .reset]).pending = .command w :: [.reset] ∧
    (machine Codec.reset [.command w, .command w']).pending = [w, w'].map HostInput.command ∧
    (machine (packed [1]) [.command w']).pending = [w'].map HostInput.command ∧
    [true, false, true].count true = [w, w'].length ∧ [true, false, true].count false = [w'].length :=
  ⟨rfl, rfl, rfl, rfl, rfl, rfl⟩

/-- A state with a received frame and a composed one, reached by no short run, meets the invariant and steps. -/
theorem witness_StepKeepsTheInvariant :
    let k : Codec := { tagFrame .inventory 0 0 5 with tx := composeFrame hardware 0x8A [1], txValid := true }
    Inv k ∧ ∃ t, step (machine k [.command 0x0B00000000]) = .next t := by
  refine ⟨⟨⟨by decide, fun i h _ => by simp [tagFrame, received, Codec.reset],
      fun h => absurd h (by decide)⟩, ⟨by decide, fun i h hi => ?_⟩, ⟨by decide, by decide, by decide, fun i h _ => ?_⟩,
      ⟨fun h => absurd h (by decide), fun _ => ⟨0x8A, [1], by decide, rfl⟩⟩⟩,
    _, step_of_command _ _ _ rfl⟩
  · exact absurd (show 64 ≤ i from hi) (by omega)
  · simp [tagFrame, received, Codec.reset, TagRecord.empty]

/-! ParameterPacker and FrameCodec. -/

/-- The packs' hypothesis, at an empty, an almost full and a full buffer. -/
theorem witness_PackbAppendsOneByte :
    ∀ bytes ∈ [[], [1, 2, 3, 4, 5, 6, 7], [1, 2, 3, 4, 5, 6, 7, 8]],
      (machine (packed bytes) []).codec.plen.toNat = bytes.length ∧ (machine (packed bytes) []).codec.plen.toNat ≤ 8 := by
  decide

theorem witness_PacksAppendsTwoBytesLittleEndian :
    (0x02FFFFFFFF : CmdWord).toNat / 2 ^ 32 = 0x02 ∧
    ∀ bytes ∈ [[], [1, 2, 3, 4, 5, 6, 7], [1, 2, 3, 4, 5, 6, 7, 8]], (machine (packed bytes) []).codec.plen.toNat ≤ 8 := by
  decide

theorem witness_PackiAppendsFourBytesLittleEndian :
    (0x03FFFFFFFF : CmdWord).toNat / 2 ^ 32 = 0x03 ∧
    ∀ bytes ∈ [[], [1, 2, 3, 4, 5], [1, 2, 3, 4, 5, 6, 7, 8]], (machine (packed bytes) []).codec.plen.toNat ≤ 8 := by
  decide

/-- The unbounded view, at 0, 8 and 9 bytes: `COMPOSE`'s two clauses meet between the last two. -/
theorem witness_PackerRefinesTheUnboundedSequence :
    StandsFor (machine (packed []) []).codec [] ∧
    StandsFor (machine (packed [1, 2, 3, 4, 5, 6, 7, 8]) []).codec [1, 2, 3, 4, 5, 6, 7, 8] ∧
    StandsFor (machine (packed [1, 2, 3, 4, 5, 6, 7, 8, 9]) []).codec [1, 2, 3, 4, 5, 6, 7, 8, 9] := by
  unfold StandsFor; decide

theorem witness_ComposedFrameLayoutAndChecksum : ([] : List Byte).length ≤ 8 ∧ [(1 : Byte), 2, 3, 4, 5, 6, 7, 8].length ≤ 8 := by
  decide

theorem witness_ComposeWritesTheFrame : ∀ bytes ∈ [[], [1, 2, 3, 4, 5, 6, 7, 8]],
    (machine (packed bytes) []).codec.povf = false ∧ (machine (packed bytes) []).codec.plen.toNat ≤ 8 := by decide

theorem witness_ComposeRejectsMoreThanEightBytes :
    (machine (packed [1, 2, 3, 4, 5, 6, 7, 8, 9]) []).codec.povf = true := by decide

/-- Each part of the statement: a `COMPOSE`; old bytes with packs of every width after them that just fit and that are one byte too
many; a run of operations after an overflow; a reset event. -/
theorem witness_OnlyPbrstRecoversTheParameterBuffer :
    (∃ t, exec (.compose 0x8A) (machine (packed [1]) []) = .next t) ∧
    (StandsFor (packed [1]) [1] ∧ PacksInOrder [.packb 2, .packs 0x0403, .packi 0x08070605] [2, 3, 4, 5, 6, 7, 8] ∧
      ([(1 : Byte)] ++ [2, 3, 4, 5, 6, 7, 8]).length ≤ 8) ∧
    (StandsFor (packed [1, 2]) [1, 2] ∧ PacksInOrder [.packb 2, .packs 0x0403, .packi 0x08070605] [2, 3, 4, 5, 6, 7, 8] ∧
      8 < ([(1 : Byte), 2] ++ [2, 3, 4, 5, 6, 7, 8]).length) ∧
    (let s := machine (packed [1, 2, 3, 4, 5, 6, 7, 8, 9]) []
     Answers (.compose 0) s s.codec .parameterOverflow 0 ∧ Instr.pbrst ∉ [Instr.packb 7, .rxclr] ∧
      ∃ t, runOps [.packb 7, .rxclr] s = .next t) ∧
    (machine (packed [1]) [.reset]).pending = .reset :: [] := by
  refine ⟨⟨_, exec_eq_deliver _ _⟩, ⟨by unfold StandsFor; decide, by unfold PacksInOrder; decide, by decide⟩,
    ⟨by unfold StandsFor; decide, by unfold PacksInOrder; decide, by decide⟩, ⟨?_, by decide, _, rfl⟩, rfl⟩
  rw [answers_iff]
  exact ⟨rfl, rfl⟩

/-- The receive buffer with the composed frame in it and nothing else. -/
def looped (opcode : Byte) (p : List Byte) : Codec :=
  { Codec.reset with
    tx := composeFrame hardware opcode p, txValid := true
    rx := Vector.ofFn fun i => if h : i.val < 16 then (composeFrame hardware opcode p)[i.val] else 0
    rxlen := 16 }

theorem looped_loopedBack (opcode : Byte) (p : List Byte) : LoopedBack (looped opcode p) := by
  refine ⟨rfl, fun i h => ?_⟩
  simp [looped, h]

/-- A composed frame looped back is a Command frame; with a bit of its stored trailer flipped it is one still, and of the two
states one has equal trailers and the other different ones, whatever the checksum function. -/
theorem witness_VerifyComparesTheTrailers :
    let k := looped 0x8A [1]
    let k' : Codec := { k with rx := k.rx.set 14 (k.rx[14] ^^^ 1) }
    HoldsFrame k .command ∧ HoldsFrame k' .command ∧ storedTrailer k.rx ≠ storedTrailer k'.rx ∧
    expectedTrailer hardware k.rx = expectedTrailer hardware k'.rx := by
  refine ⟨⟨rfl, rfl⟩, ⟨rfl, rfl⟩, ?_, rfl⟩
  intro h
  have h' := congrArg (BitVec.extractLsb' 0 8) h
  have e : ∀ lo hi : Byte, (half lo hi).extractLsb' 0 8 = lo := by
    intro lo hi
    apply BitVec.eq_of_toNat_eq
    rw [BitVec.extractLsb'_toNat, half_toNat]
    have := lo.isLt
    simp; omega
  rw [storedTrailer, storedTrailer, e, e] at h'
  have : ∀ b : Byte, b ≠ b ^^^ 1 := by decide
  exact this _ h'

theorem witness_ComposedFrameSurvivesTheRoundTrip :
    (machine (packed [1]) []).codec.povf = false ∧
    (∃ t, exec (.compose 0x8A) (machine (packed [1]) []) = .next t ∧ (looped 0x8A [1]).tx = t.codec.tx) ∧
    LoopedBack (looped 0x8A [1]) := by
  refine ⟨rfl, ⟨_, exec_eq_deliver _ _, rfl⟩, looped_loopedBack _ _⟩

theorem witness_RoundTripThroughTheCommandPort : [(1 : Byte), 2, 3, 4, 5, 6, 7, 8].length ≤ 8 := by decide

/-! Receive buffer, classifier, opcode resolution. -/

theorem witness_RxpushAppendsOneByte : ∀ n ∈ [0, 63, 64, 65],
    (machine (loaded (List.replicate n 0)) []).codec.rxlen.toNat = n ∧
    (machine (loaded (List.replicate n 0)) []).codec.rxlen.toNat ≤ 65 := by decide

theorem witness_FrameTypeTable : hardware.tag .work = hardware.tag .work := rfl

/-- A word, a frame of every type, an empty buffer, an unknown tag at 1 and at 65 bytes, and each type one byte short and one
long. -/
theorem witness_ClassifyAnswersTypeAndLength :
    (0x07FFFFFFFF : CmdWord).toNat / 2 ^ 32 = 0x07 ∧
    (∀ t, HoldsFrame (machine (received t (declaredLength t) []) []).codec t) ∧
    (machine Codec.reset []).codec.rxlen = 0 ∧
    (∀ n ∈ [1, 65], (machine (unknownTag n) []).codec.rxlen ≠ 0 ∧
      ∀ t, hardware.tag t ≠ (machine (unknownTag n) []).codec.rx[0]) ∧
    (∀ t, ∀ n ∈ [declaredLength t - 1, declaredLength t + 1], hardware.tag t = (received t n []).rx[0] ∧
      (received t n []).rxlen.toNat ≠ declaredLength t) := by
  refine ⟨by decide, fun t => received_holds t [], rfl, fun n h => ⟨?_, fun t => ?_⟩, fun t n h => ⟨(received_tag _ _ _).symm, ?_⟩⟩
  · simp only [List.mem_cons, List.not_mem_nil, or_false] at h
    rcases h with rfl | rfl <;> exact by decide
  · rw [machine, unknownTag_tag]; exact noTag t
  · simp only [List.mem_cons, List.not_mem_nil, or_false] at h
    rcases h with rfl | rfl <;> cases t <;> decide

/-- As for `CLASSIFY`, and a frame of a type that each of the two does not take. -/
theorem witness_VerifyAndDecinvAdmission :
    (Instr.verify = .verify ∨ Instr.verify = .decinv) ∧ (machine Codec.reset []).codec.rxlen = 0 ∧
    ((unknownTag 16).rxlen ≠ 0 ∧ ∀ t, hardware.tag t ≠ (unknownTag 16).rx[0]) ∧
    (hardware.tag .command = (received .command 17 []).rx[0] ∧ (received .command 17 []).rxlen.toNat ≠ declaredLength .command) ∧
    (HoldsFrame (received .response 16 []) .response ∧ (Instr.verify = .verify → FrameType.response ≠ .command)) ∧
    (HoldsFrame (received .work 24 []) .work ∧
      (Instr.decinv = .decinv → FrameType.work ≠ .inventory ∧ FrameType.work ≠ .access)) := by
  refine ⟨.inl rfl, rfl, ⟨by decide, fun t => ?_⟩, ⟨(received_tag _ _ _).symm, by decide⟩,
    ⟨received_holds .response [], by decide⟩, ⟨received_holds .work [], by decide⟩⟩
  rw [unknownTag_tag]; exact noTag t

theorem witness_PushWithoutRxclrTruncatesTheNextFrame :
    HoldsFrame (machine (received .command 16 []) []).codec .command ∧
    HoldsFrame (machine (received .inventory 64 []) []).codec .inventory :=
  ⟨received_holds .command [], received_holds .inventory []⟩

/-- Five bytes and six; the table being open, which of the two clauses on six bytes applies is open too. -/
theorem witness_OpcodeofResolvesTheUnsignedByte :
    (machine (received .command 5 []) []).codec.rxlen.toNat < 6 ∧
    6 ≤ (machine (received .command 6 [(5, 0x8A)]) []).codec.rxlen.toNat ∧
    ((∃ cmd, hardware.opcodeTable (received .command 6 [(5, 0x8A)]).rx[5] = some cmd) ∨
      hardware.opcodeTable (received .command 6 [(5, 0x8A)]).rx[5] = none) := by
  refine ⟨by decide, by decide, ?_⟩
  cases h : hardware.opcodeTable (received .command 6 [(5, 0x8A)]).rx[5] with
  | none => exact .inr rfl
  | some cmd => exact .inl ⟨cmd, rfl⟩

/-! InventoryResponseDecoder. -/

/-- Both types, and a frame whose lengths are wrong as well. -/
theorem witness_CrcFlaggedFrameIsDiscardedSilently :
    (Admitted (machine (tagFrame .inventory 0 0x01 5) []).codec ∧ (tagFrame .inventory 0 0x01 5).rx[7].getLsbD 0 = true) ∧
    (Admitted (machine (tagFrame .access 2 0xFF 255) []).codec ∧ (tagFrame .access 2 0xFF 255).rx[7].getLsbD 0 = true) :=
  ⟨⟨tagFrame_admitted _ (.inl rfl) _ _ _, rfl⟩, ⟨tagFrame_admitted _ (.inr rfl) _ _ _, rfl⟩⟩

/-- The least and the greatest accepted info length of each of the four kinds of frame (section 2.5's table). -/
theorem witness_DecinvExtractsTheIdentifier :
    ∀ x ∈ [((0 : Byte), (0 : Byte), (4 : Byte)), (1, 0, 13), (0, 0x0A, 6), (1, 0x0A, 13), (2, 0, 4), (255, 0, 16), (2, 0x0A, 6),
        (255, 0x0A, 16)],
      Admitted (tagFrame .inventory x.1 x.2.1 x.2.2) ∧ TagValid (tagFrame .inventory x.1 x.2.1 x.2.2) ∧
      AcceptedLength (tagFrame .inventory x.1 x.2.1 x.2.2) := by
  intro x hx
  refine ⟨tagFrame_admitted _ (.inl rfl) _ _ _, ?_⟩
  simp only [List.mem_cons, List.not_mem_nil, or_false] at hx
  rcases hx with rfl | rfl | rfl | rfl | rfl | rfl | rfl | rfl <;> (unfold AcceptedLength; decide)

/-- A first frame and a continuation frame that decode. -/
theorem witness_DecinvRssiOnFirstFramesOnly :
    (∃ k d, Answers .decinv (machine (tagFrame .inventory 1 0 5) []) k .ok d ∧ FirstFrame (tagFrame .inventory 1 0 5)) ∧
    (∃ k d, Answers .decinv (machine (tagFrame .inventory 2 0 5) []) k .ok d ∧ ¬ FirstFrame (tagFrame .inventory 2 0 5)) := by
  obtain ⟨k, d, h⟩ := tagFrame_decodes .inventory (.inl rfl) 1 0 5 rfl (by unfold AcceptedLength; decide)
  obtain ⟨k', d', h'⟩ := tagFrame_decodes .inventory (.inl rfl) 2 0 5 rfl (by unfold AcceptedLength; decide)
  exact ⟨⟨k, d, h, by decide⟩, ⟨k', d', h', by decide⟩⟩

/-- A frame with the telemetry block and one with only one of its two flags. -/
theorem witness_DecinvReadsTheTelemetryBlock :
    (∃ k d, Answers .decinv (machine (tagFrame .inventory 0 0x0A 6) []) k .ok d ∧ HasTelemetry (tagFrame .inventory 0 0x0A 6)) ∧
    (∃ k d, Answers .decinv (machine (tagFrame .inventory 0 0x08 5) []) k .ok d ∧ ¬ HasTelemetry (tagFrame .inventory 0 0x08 5)) := by
  obtain ⟨k, d, h⟩ := tagFrame_decodes .inventory (.inl rfl) 0 0x0A 6 rfl (by unfold AcceptedLength; decide)
  obtain ⟨k', d', h'⟩ := tagFrame_decodes .inventory (.inl rfl) 0 0x08 5 rfl (by unfold AcceptedLength; decide)
  exact ⟨⟨k, d, h, by decide⟩, ⟨k', d', h', by decide⟩⟩

theorem witness_DecinvKeepsFieldsTheFrameLacks :
    ∃ k d, Answers .decinv (machine (tagFrame .access 2 0x02 16) []) k .ok d ∧ ¬ HasTelemetry (tagFrame .access 2 0x02 16) := by
  obtain ⟨k, d, h⟩ := tagFrame_decodes .access (.inr rfl) 2 0x02 16 rfl (by unfold AcceptedLength; decide)
  exact ⟨k, d, h, by decide⟩

/-- Info lengths on both sides of both bounds, of each of the four kinds of frame; the last component says which clause the test
`L < 0 or S + L > 64` picks. -/
theorem witness_DecinvIdentifierBounds :
    ∀ x ∈ [((1 : Byte), (0 : Byte), (3 : Byte), true), (1, 0, 4, false), (1, 0, 13, false), (1, 0, 14, true),
        (1, 0x0A, 5, true), (1, 0x0A, 6, false), (1, 0x0A, 13, false), (1, 0x0A, 14, true),
        (2, 0, 3, true), (2, 0, 4, false), (2, 0, 16, false), (2, 0, 17, true),
        (2, 0x0A, 5, true), (2, 0x0A, 6, false), (2, 0x0A, 16, false), (2, 0x0A, 17, true)],
      Admitted (machine (tagFrame .inventory x.1 x.2.1 x.2.2.1) []).codec ∧
      TagValid (machine (tagFrame .inventory x.1 x.2.1 x.2.2.1) []).codec ∧
      idOutOfRange (tagFrame .inventory x.1 x.2.1 x.2.2.1).rx = x.2.2.2 := by
  intro x hx
  refine ⟨tagFrame_admitted _ (.inl rfl) _ _ _, ?_⟩
  simp only [List.mem_cons, List.not_mem_nil, or_false] at hx
  rcases hx with rfl | rfl | rfl | rfl | rfl | rfl | rfl | rfl | rfl | rfl | rfl | rfl | rfl | rfl | rfl | rfl <;> decide

theorem witness_DecinvIsIdempotent :
    ∃ k d, Answers .decinv (machine (tagFrame .inventory 0 0x0A 13) []) k .ok d ∧ (machine k []).codec = k := by
  obtain ⟨k, d, h⟩ := tagFrame_decodes .inventory (.inl rfl) 0 0x0A 13 rfl (by unfold AcceptedLength; decide)
  exact ⟨k, d, h, rfl⟩

/-- Two frames that differ in bytes the layout does not name (1, 29, 34, 60) and in bits it ignores (flags bits 2 and 4 to 7, phase
bits 6 and 7), one Inventory, one Access. -/
theorem witness_DecinvIgnoresEveryUnnamedBit :
    let s := machine (received .inventory 64 [(7, 0x0A), (10, 6), (27, 0x25)]) []
    let u := machine (received .access 64 [(1, 0xFF), (7, 0xFE), (10, 6), (27, 0xE5), (29, 0xAA), (34, 0x30), (60, 1)]) []
    Admitted s.codec ∧ Admitted u.codec ∧ s.codec.tr = u.codec.tr ∧ s.codec.rx[5] = u.codec.rx[5] ∧
    s.codec.rx[7].getLsbD 0 = u.codec.rx[7].getLsbD 0 ∧ s.codec.rx[7].getLsbD 1 = u.codec.rx[7].getLsbD 1 ∧
    s.codec.rx[7].getLsbD 3 = u.codec.rx[7].getLsbD 3 ∧
    s.codec.rx[10] = u.codec.rx[10] ∧ s.codec.rx[11] = u.codec.rx[11] ∧
    (FirstFrame s.codec → s.codec.rx[22] = u.codec.rx[22] ∧ s.codec.rx[23] = u.codec.rx[23]) ∧
    (∀ D T : Nat, D = (if FirstFrame s.codec then 26 else 14) → T = (if HasTelemetry s.codec then 8 else 0) →
      (HasTelemetry s.codec → ∀ j, j ∈ [0, 2, 4, 5, 6, 7] → s.codec.rx[D + j]? = u.codec.rx[D + j]?) ∧
      (HasTelemetry s.codec → ∀ b c, s.codec.rx[D + 1]? = some b → u.codec.rx[D + 1]? = some c →
        b.toNat % 64 = c.toNat % 64) ∧
      (∀ i, i + 16 + T < 4 * infoLen s.codec → s.codec.rx[D + T + 2 + i]? = u.codec.rx[D + T + 2 + i]?)) ∧
    ∃ k d, Answers .decinv s k .ok d := by
  refine ⟨.inl (received_holds .inventory _), .inr (received_holds .access _), rfl, rfl, by decide, by decide, by decide, rfl, rfl,
    fun _ => ⟨rfl, rfl⟩, ?_, ⟨_, _, decinv_ok_of _ (.inl (received_holds .inventory _)) rfl rfl⟩⟩
  intro D T hD hT
  have eD : D = 26 := hD
  have eT : T = 8 := hT
  subst eD eT
  refine ⟨fun _ => by decide, fun _ b c hb hc => ?_, fun i hi => ?_⟩
  · have eb : b = 0x25 := (Option.some.inj hb).symm
    have ec : c = 0xE5 := (Option.some.inj hc).symm
    subst eb ec; decide
  · exact absurd (show i + 16 + 8 < 24 from hi) (by omega)

/-- A decode that completes, a reset event, an operation on a set and one on a clear bit, and a step that clears it. -/
theorem witness_CrcValidIsSetAndClearedAsStated :
    let k : Codec := { Codec.reset with tr := { TagRecord.empty with crcValid := true } }
    (∃ k d, Answers .decinv (machine (tagFrame .inventory 0 0 4) []) k .ok d) ∧
    (machine (packed [1]) [.reset]).pending = .reset :: [] ∧
    (∃ t, exec .rxclr (machine k []) = .next t ∧ Instr.rxclr ≠ .trclr ∧ (machine k []).codec.tr.crcValid = true) ∧
    (∃ t, exec .trclr (machine Codec.reset []) = .next t ∧ Instr.trclr ≠ .decinv ∧
      (machine Codec.reset []).codec.tr.crcValid = false) ∧
    (∃ t, step (machine k [.command 0x0A00000000]) = .next t ∧
      (machine k [.command 0x0A00000000]).codec.tr.crcValid = true ∧ t.codec.tr.crcValid = false) :=
  ⟨tagFrame_decodes .inventory (.inl rfl) 0 0 4 rfl (by unfold AcceptedLength; decide), rfl,
    ⟨_, exec_eq_deliver _ _, by decide, rfl⟩, ⟨_, exec_eq_deliver _ _, by decide, rfl⟩,
    ⟨_, step_of_command _ _ _ rfl, rfl, by decide⟩⟩

/-! StatusDecoder. -/

/-- The last offset of a full frame. -/
theorem witness_RdbReturnsTheByteUnsigned : let s := machine (loaded (bytesAt [(63, 0x8A)] 64)) []
    (63 : Byte).toNat + 1 ≤ s.codec.rxlen.toNat ∧ s.codec.rx[(63 : Byte).toNat]? = some 0x8A := by decide

theorem witness_RdsReturnsTheSignedValue : let s := machine (loaded frameR) []
    (14 : Byte).toNat + 2 ≤ s.codec.rxlen.toNat ∧ s.codec.rx[(14 : Byte).toNat]? = some 0xFF ∧
    s.codec.rx[(14 : Byte).toNat + 1]? = some 0x80 := by decide

/-- A word; the last readable offset and the next. -/
theorem witness_RdiReturnsTheSignedValue : let s := machine (loaded frameR) []
    (0x0EFFFFFFFF : CmdWord).toNat / 2 ^ 32 = 0x0E ∧
    (12 : Byte).toNat + 4 ≤ min s.codec.rxlen.toNat 64 ∧ min s.codec.rxlen.toNat 64 < (13 : Byte).toNat + 4 := by decide

theorem witness_RdverReturnsThreeBytesInOrder : let s := machine (loaded frameR) []
    (13 : Byte).toNat + 3 ≤ s.codec.rxlen.toNat ∧ s.codec.rx[(13 : Byte).toNat]? = some 0xFF ∧
    s.codec.rx[(13 : Byte).toNat + 1]? = some 0xFF ∧ s.codec.rx[(13 : Byte).toNat + 2]? = some 0x80 := by decide

/-- The first offset out of range of each width. -/
theorem witness_ReadsBeyondTheStoredBytesAreTruncated : let s := machine (loaded frameR) []
    min s.codec.rxlen.toNat 64 < (16 : Byte).toNat + 1 ∧ min s.codec.rxlen.toNat 64 < (15 : Byte).toNat + 2 ∧
    min s.codec.rxlen.toNat 64 < (13 : Byte).toNat + 4 ∧ min s.codec.rxlen.toNat 64 < (14 : Byte).toNat + 3 := by decide

theorem witness_WiderReadsAgreeWithByteReads : let s := machine (loaded (List.replicate 65 0x80)) []
    (62 : Byte).toNat + 2 ≤ min s.codec.rxlen.toNat 64 ∧ (60 : Byte).toNat + 4 ≤ min s.codec.rxlen.toNat 64 := by decide

/-! Rules of the whole machine. -/

/-- A command word whose answer is not `OK`. -/
theorem fails_of (k : Codec) (w : CmdWord) (h : (codecStep hardware w k).2.status ≠ .ok) :
    ∃ t r, (machine k [.command w]).pending = .command w :: [] ∧ step (machine k [.command w]) = .next t ∧
      t.rsps = (machine k [.command w]).rsps ++ [r] ∧ r.status ≠ .ok :=
  ⟨_, _, rfl, step_of_command _ w [] rfl, rfl, h⟩

/-- A failing operation (a read of an empty buffer) and a reserved code. -/
theorem witness_EveryFailureChangesNothing : ∀ w, w = 0x0C00000000 ∨ w = 0x1012345678 →
    ∃ t r, (machine Codec.reset [.command w]).pending = .command w :: [] ∧
      step (machine Codec.reset [.command w]) = .next t ∧
      t.rsps = (machine Codec.reset [.command w]).rsps ++ [r] ∧ r.status ≠ .ok := by
  rintro w (rfl | rfl) <;> exact fails_of _ _ (by decide)

theorem witness_EachOperationWritesOnlyItsSpace : ∀ i : Instr, ∃ t, exec i (machine (tagFrame .inventory 0 0 5) []) = .next t :=
  fun i => ⟨_, exec_eq_deliver i _⟩

theorem witness_ReadingOperationsAreIdempotent :
    (match Instr.rdver 3 with
     | .classify | .opcodeof | .verify | .rdb _ | .rds _ _ | .rdi _ _ | .rdver _ => True
     | _ => False) := trivial

/-- An operation that ends with each status an operation can be shown to end with, the table being open. -/
theorem witness_EachStatusComesFromItsOperations :
    ∀ x ∈ [(Instr.pbrst, Codec.reset, Status.ok), (.compose 0, packed [1, 2, 3, 4, 5, 6, 7, 8, 9], .parameterOverflow),
        (.rdb 0, Codec.reset, .truncatedFrame), (.classify, unknownTag 1, .unknownFrameType),
        (.verify, received .response 16 [], .wrongFrameFamily), (.decinv, tagFrame .inventory 0 1 5, .crcInvalidFlag)],
      ∃ t r, exec x.1 (machine x.2.1 []) = .next t ∧ t.rsps = (machine x.2.1 []).rsps ++ [r] ∧ r.status = x.2.2 := by
  intro x hx
  refine ⟨_, _, exec_eq_deliver _ _, rfl, ?_⟩
  simp only [List.mem_cons, List.not_mem_nil, or_false] at hx
  rcases hx with rfl | rfl | rfl | rfl | rfl | rfl
  · rfl
  · rfl
  · rfl
  · have h := classifyFrame_of_unknown hardware (unknownTag 1) (by decide) (fun t => by rw [unknownTag_tag]; exact noTag t)
    simp [opResult, classifyOp, machine, h]
  · have h := (classifyFrame_eq_ok_iff _ _).mpr (received_holds .response [])
    simp only [declaredLength] at h
    simp [opResult, verifyOp, machine, h]
  · have h := decinvOp_of_admitted _ (tagFrame_admitted .inventory (.inl rfl) 0 1 5)
    simp only [opResult, machine, h]
    rfl

/-- `TXVALID` set and kept, and clear and set. -/
theorem witness_TxValidIsSetByComposeOnly :
    (∃ t, exec .pbrst (machine (looped 0 []) []) = .next t ∧ (machine (looped 0 []) []).codec.txValid = true) ∧
    (∃ t, exec (.compose 0) (machine (packed []) []) = .next t ∧ (machine (packed []) []).codec.txValid = false ∧
      t.codec.txValid = true) :=
  ⟨⟨_, exec_eq_deliver _ _, rfl⟩, ⟨_, exec_eq_deliver _ _, rfl, rfl⟩⟩

theorem witness_OnlyTheNamedOperationsUseTheParameters :
    ((∀ o, Instr.decinv ≠ .compose o) ∧ Instr.decinv ≠ .verify) ∧ Instr.compose 0x8A ≠ .opcodeof := by
  refine ⟨⟨fun o => ?_, by decide⟩, by decide⟩
  exact Instr.noConfusion

theorem witness_RenderHexDigits : 1 < [(0xDE : Byte), 0x0A].length ∧ 0 + 1 < [(0xDE : Byte), 0x0A].length := by decide

end Sys2Proof.Tests
end

namespace Sys2Proof.Machine

/-! ### The step on a command word (R12) -/

/-- Settles O10: the pair is that of R12's function, and the next state determines its codec and its last response. -/
theorem exactlyOneNextStateAndResponse : Obligations.ExactlyOneNextStateAndResponse := by
  intro s w rest hp
  refine ⟨codecStep hardware w s.codec, step_of_command s w rest hp, fun ⟨k, r⟩ hstep => ?_⟩
  rw [step_of_command s w rest hp] at hstep
  injection hstep with hstate
  injection hstate with hcodec _ hrsps
  have hr : (codecStep hardware w s.codec).2 = r := by simpa using hrsps
  exact Prod.ext hcodec.symm hr.symm

/-! ### Reads of the stored frame that are in range (R160) -/

/-- An operation that is a bounded read answers its data and changes nothing when the read is in range (R160). -/
theorem answers_of_boundedRead {i : Instr} {s : State} {off w : Nat} {d : Word}
    (hi : opResult hardware i s.codec = boundedRead s.codec off w d) (h : off + w ≤ rxn s.codec) :
    Answers i s s.codec .ok d := by
  rw [answers_iff, hi, boundedRead_of_le _ _ _ _ h]
  exact ⟨rfl, rfl⟩

theorem answers_rdb (s : State) (off : Byte) (h : off.toNat + 1 ≤ rxn s.codec) :
    Answers (.rdb off) s s.codec .ok ((byteAt s.codec.rx off.toNat).setWidth 32) :=
  answers_of_boundedRead rfl h

theorem answers_rds (s : State) (off : Byte) (le : Bool) (h : off.toNat + 2 ≤ rxn s.codec) :
    Answers (.rds off le) s s.codec .ok ((halfAt s.codec.rx off.toNat le).signExtend 32) :=
  answers_of_boundedRead rfl h

theorem answers_rdi (s : State) (off : Byte) (le : Bool) (h : off.toNat + 4 ≤ rxn s.codec) :
    Answers (.rdi off le) s s.codec .ok (wordAt s.codec.rx off.toNat le) :=
  answers_of_boundedRead rfl h

/-- `RDB` some bytes past an offset: at most 64 bytes are stored, so the 8-bit sum of an offset in range does not wrap. -/
theorem answers_rdb_add (s : State) (off : Byte) (j : Nat) (h : off.toNat + j + 1 ≤ rxn s.codec) :
    Answers (.rdb (off + BitVec.ofNat 8 j)) s s.codec .ok ((byteAt s.codec.rx (off.toNat + j)).setWidth 32) := by
  have hle : rxn s.codec ≤ 64 := rxn_le s.codec
  have hsum : (off + BitVec.ofNat 8 j).toNat = off.toNat + j := by
    rw [BitVec.toNat_add, BitVec.toNat_ofNat]
    omega
  rw [← hsum] at h ⊢
  exact answers_rdb s _ h

/-! ### The data words of the reads -/

/-- The data word of `RDS`: the 16-bit pattern below, and above it copies of bit 7 of the more significant byte (R162, R10). -/
theorem signExtendedHalf_toNat (lo hi : Byte) :
    ((half lo hi).signExtend 32 : Word).toNat =
      (lo.toNat + 256 * hi.toNat) + 2 ^ 16 * (if hi.toNat < 128 then 0 else 0xFFFF) := by
  have hlo : lo.toNat < 256 := lo.isLt
  have hmsb : (half lo hi).msb = decide (128 ≤ hi.toNat) := by
    rw [BitVec.msb_eq_decide, half_toNat, decide_eq_decide]
    omega
  rw [BitVec.toNat_signExtend, BitVec.toNat_setWidth_of_le (by decide), half_toNat, hmsb]
  by_cases hneg : hi.toNat < 128
  · simp [hneg]
  · simp [hneg, Nat.le_of_not_lt hneg]

@[simp] theorem halfAt_littleEndian {n : Nat} (b : Vector Byte n) (off : Nat) :
    halfAt b off true = half (byteAt b off) (byteAt b (off + 1)) := rfl

@[simp] theorem wordAt_littleEndian {n : Nat} (b : Vector Byte n) (off : Nat) :
    wordAt b off true = word (byteAt b off) (byteAt b (off + 1)) (byteAt b (off + 2)) (byteAt b (off + 3)) := rfl

/-! ### Mixed widths (R53) -/

/-- Settles O53: in range, a wider little-endian read puts together the bytes that `RDB` returns at the offsets it spans. -/
theorem widerReadsAgreeWithByteReads : Obligations.WiderReadsAgreeWithByteReads := by
  intro s off
  refine ⟨fun (h : off.toNat + 2 ≤ rxn s.codec) => ?_, fun (h : off.toNat + 4 ≤ rxn s.codec) => ?_⟩
  · refine ⟨_, _, _, answers_rds s off true h, answers_rdb s off (by omega), answers_rdb_add s off 1 h, ?_⟩
    have hlo : (byteAt s.codec.rx off.toNat).toNat < 256 := BitVec.isLt _
    have hhi : (byteAt s.codec.rx (off.toNat + 1)).toNat < 256 := BitVec.isLt _
    simp only [halfAt_littleEndian, signExtendedHalf_toNat, BitVec.toNat_setWidth_of_le (show 8 ≤ 32 by decide)]
    split_ifs <;> omega
  · refine ⟨_, _, _, _, _, answers_rdi s off true h, answers_rdb s off (by omega),
      answers_rdb_add s off 1 (by omega), answers_rdb_add s off 2 (by omega), answers_rdb_add s off 3 h, ?_⟩
    simp only [wordAt_littleEndian, word_toNat, le32, BitVec.toNat_setWidth_of_le (show 8 ≤ 32 by decide)]

end Sys2Proof.Machine

namespace Sys2Proof.Machine

/-! ### What an operation does to the tag record (R30, R32) -/

@[simp] theorem appendBytes_tr (bs : List Byte) (k : Codec) : (appendBytes bs k).tr = k.tr := by
  rw [appendBytes_frame, Codec.setPacker_tr]

@[simp] theorem pushRx_tr (b : Byte) (k : Codec) : (pushRx b k).tr = k.tr := by
  rw [pushRx_frame, Codec.setRx_tr]

@[simp] theorem nextCodec_composeOp_tr (c : Config) (opcode : Byte) (k : Codec) :
    (nextCodec k (composeOp c opcode k)).tr = k.tr := by
  unfold composeOp; split <;> rfl

@[simp] theorem nextCodec_classifyOp (c : Config) (k : Codec) : nextCodec k (classifyOp c k) = k := by
  unfold classifyOp; split <;> rfl

@[simp] theorem nextCodec_opcodeofOp (c : Config) (k : Codec) : nextCodec k (opcodeofOp c k) = k := by
  unfold opcodeofOp; split_ifs <;> [rfl; split <;> rfl]

@[simp] theorem nextCodec_verifyOp (c : Config) (k : Codec) : nextCodec k (verifyOp c k) = k := by
  unfold verifyOp; split <;> [rfl; split_ifs <;> rfl]

/-- Only `TRCLR` and `DECINV` write the tag record. -/
theorem nextCodec_opResult_tr (c : Config) (k : Codec) {i : Instr} (hclr : i ≠ .trclr) (hdec : i ≠ .decinv) :
    (nextCodec k (opResult c i k)).tr = k.tr := by
  cases i with
  | trclr => exact absurd rfl hclr
  | decinv => exact absurd rfl hdec
  | pbrst | rxclr => rfl
  | packb v | packs v | packi v => exact appendBytes_tr _ k
  | compose opcode => exact nextCodec_composeOp_tr c opcode k
  | rxpush b => exact pushRx_tr b k
  | classify => exact congrArg Codec.tr (nextCodec_classifyOp c k)
  | opcodeof => exact congrArg Codec.tr (nextCodec_opcodeofOp c k)
  | verify => exact congrArg Codec.tr (nextCodec_verifyOp c k)
  | rdb off | rds off le | rdi off le | rdver off => exact congrArg Codec.tr (nextCodec_boundedRead k _ _ _)

theorem nextCodec_trclr_crcValid (c : Config) (k : Codec) :
    (nextCodec k (opResult c .trclr k)).tr.crcValid = false := rfl

/-- `DECINV` leaves the codec alone or commits a record, and a commit sets the bit (R147, R176). -/
theorem nextCodec_decinv_crcValid (k : Codec) (h : k.tr.crcValid = true) :
    (nextCodec k (opResult hardware .decinv k)).tr.crcValid = true := by
  have hcommit : (commitRecord k.rx k.tr).crcValid = true := (commitRecord_id k.rx k.tr).1
  rcases decinvOp_cases k with ⟨-, e⟩ | ⟨-, e⟩ | ⟨_, -, -, -, e⟩ | ⟨_, -, -, ⟨-, e⟩ | ⟨-, -, e⟩ | ⟨-, -, e⟩⟩ <;>
    simp [opResult, e, h, hcommit]

/-- No operation but `TRCLR` clears the bit. -/
theorem nextCodec_crcValid_of_ne_trclr {i : Instr} {k : Codec} (hi : i ≠ .trclr) (h : k.tr.crcValid = true) :
    (nextCodec k (opResult hardware i k)).tr.crcValid = true := by
  by_cases hdec : i = .decinv
  · exact hdec ▸ nextCodec_decinv_crcValid k h
  · rw [nextCodec_opResult_tr hardware k hi hdec, h]

/-- No operation but `DECINV` sets the bit. -/
theorem nextCodec_crcValid_of_ne_decinv {i : Instr} {k : Codec} (hi : i ≠ .decinv) (h : k.tr.crcValid = false) :
    (nextCodec k (opResult hardware i k)).tr.crcValid = false := by
  by_cases hclr : i = .trclr
  · exact hclr ▸ nextCodec_trclr_crcValid hardware k
  · rw [nextCodec_opResult_tr hardware k hclr hi, h]

/-- A command word that is not `TRCLR`'s leaves a set bit set, reserved words included (R83). -/
theorem codecStep_crcValid_of_ne_trclr {w : CmdWord} {k : Codec} (hw : decode w ≠ .ok .trclr)
    (h : k.tr.crcValid = true) : (codecStep hardware w k).1.tr.crcValid = true := by
  rcases codecStep_cases hardware w k with hsame | ⟨i, d, hdec, hres⟩
  · rw [hsame, h]
  · have hi : i ≠ .trclr := fun e => hw (e ▸ hdec)
    simpa [hres] using nextCodec_crcValid_of_ne_trclr hi h

/-- A step that clears the bit serves a reset event or `TRCLR`. -/
theorem event_of_step_clears_crcValid {s t : State} (h : step s = .next t) (hs : s.codec.tr.crcValid = true)
    (ht : t.codec.tr.crcValid = false) :
    (∃ rest, s.pending = .reset :: rest) ∨ (∃ w rest, s.pending = .command w :: rest ∧ decode w = .ok .trclr) := by
  rcases step_cases h with ⟨-, rfl⟩ | ⟨rest, hp, -⟩ | ⟨w, rest, hp, rfl⟩
  · exact absurd (hs.symm.trans ht) (by decide)
  · exact .inl ⟨rest, hp⟩
  · refine .inr ⟨w, rest, hp, by_contra fun hw => ?_⟩
    exact absurd ((codecStep_crcValid_of_ne_trclr hw hs).symm.trans ht) (by decide)

/-- Settles O47: each operation's effect on the bit comes from what it does to the tag record, and the step's from its
inversion. -/
theorem crcValidIsSetAndClearedAsStated : Obligations.CrcValidIsSetAndClearedAsStated := by
  refine ⟨fun s k d h => ?_, fun s => ?_, fun s rest hp => ⟨_, step_of_reset s rest hp, rfl⟩, rfl,
    fun i s t h hi hs => ?_, fun i s t h hi hs => ?_, fun s t => event_of_step_clears_crcValid⟩
  · obtain ⟨-, -, -, rfl, -⟩ := decinv_ok_inv h
    exact (commitRecord_id s.codec.rx s.codec.tr).1
  · exact ⟨_, (answers_iff .trclr s _ .ok 0).mpr ⟨rfl, rfl⟩, rfl⟩
  · rw [(exec_next_inv h).1]
    exact nextCodec_crcValid_of_ne_trclr hi hs
  · rw [(exec_next_inv h).1]
    exact nextCodec_crcValid_of_ne_decinv hi hs

end Sys2Proof.Machine

namespace Sys2Proof.Machine

/-! ### Two instances side by side (R64) -/

/-- An interleaving gives each instance what it reaches alone in as many steps as the schedule gives it. -/
theorem runPair_eq_runAlone (schedule : List Bool) (p : State × State) :
    runPair schedule p = (runAlone (schedule.count true) p.1, runAlone (schedule.count false) p.2) := by
  induction schedule generalizing p with
  | nil => rfl
  | cons turn rest ih => cases turn <;> simp [runPair, runAlone, ih]

/-- An instance running alone over its host's command words makes R203's run of them. -/
theorem runAlone_of_commands (ws : List CmdWord) (s : State) (rest : List HostInput)
    (h : s.pending = ws.map HostInput.command ++ rest) :
    runAlone ws.length s = { codec := (codecRun hardware ws s.codec).1, pending := rest,
                             rsps := s.rsps ++ (codecRun hardware ws s.codec).2 } := by
  induction ws generalizing s with
  | nil => simp [runAlone, codecRun, ← show s.pending = rest from h]
  | cons w ws ih =>
    rw [List.length_cons, runAlone, nextState_of_command s w _ h, ih _ rfl]
    simp [codecRun]

/-- Settles O12: the pair is that of R12's function, and an interleaving is two runs alone, each of them R203's run. -/
theorem instancesShareNothing : Obligations.InstancesShareNothing := by
  refine ⟨fun k w => ⟨codecStep hardware w k, ?_⟩, fun schedule a b wa wb ha hb hna hnb => ?_⟩
  · rintro s rest rfl hp
    exact step_of_command s w rest hp
  · rw [runPair_eq_runAlone, hna, hnb, runAlone_of_commands wa a [] (by simpa using ha),
      runAlone_of_commands wb b [] (by simpa using hb)]

end Sys2Proof.Machine

namespace Sys2Proof.Machine

/-! ### The command words of the packs (R80) -/

/-- An operand is the argument's low bits, read as a number: `arg[n-1:0]` with `n` at most 32. -/
theorem extractArg_eq_ofNat (w : CmdWord) {n : Nat} (hn : n ≤ 32) :
    (argField w).extractLsb' 0 n = BitVec.ofNat n (w.toNat % 2 ^ n) := by
  have hdvd : 2 ^ n ∣ 2 ^ 32 := Nat.pow_dvd_pow 2 hn
  apply BitVec.eq_of_toNat_eq
  rw [BitVec.extractLsb'_toNat, argField_toNat, Nat.shiftRight_zero, Nat.mod_mod_of_dvd _ hdvd,
    BitVec.toNat_ofNat, Nat.mod_mod]

theorem arg8_eq_ofNat (w : CmdWord) : arg8 w = BitVec.ofNat 8 (w.toNat % 256) :=
  extractArg_eq_ofNat w (by decide)

theorem arg16_eq_ofNat (w : CmdWord) : arg16 w = BitVec.ofNat 16 (w.toNat % 2 ^ 16) :=
  extractArg_eq_ofNat w (by decide)

theorem argField_eq_ofNat (w : CmdWord) : argField w = BitVec.ofNat 32 (w.toNat % 2 ^ 32) := by
  rw [← argField_toNat, BitVec.ofNat_toNat, BitVec.setWidth_eq]

theorem decode_of_op_packb {w : CmdWord} (h : w.toNat / 2 ^ 32 = 0x01) : decode w = .ok (.packb (arg8 w)) := by
  simp only [decode, opField_toNat, h]

theorem decode_of_op_packs {w : CmdWord} (h : w.toNat / 2 ^ 32 = 0x02) : decode w = .ok (.packs (arg16 w)) := by
  simp only [decode, opField_toNat, h]

theorem decode_of_op_packi {w : CmdWord} (h : w.toNat / 2 ^ 32 = 0x03) : decode w = .ok (.packi (argField w)) := by
  simp only [decode, opField_toNat, h]

/-! ### What a pack does (R101 to R104) -/

/-- A pack answers `OK`, and all it does to the codec is to append its bytes. -/
theorem answers_of_pack {i : Instr} {bs : List Byte} (hi : packOf i = some bs) (s : State) :
    Answers i s (appendBytes bs s.codec) .ok 0 := by
  rw [answers_iff, opResult_of_pack hardware hi]
  exact ⟨rfl, rfl⟩

/-- From any length in its range, a pack stores the bytes that fit and drops the rest. -/
theorem pack_answers_appended {i : Instr} {bs : List Byte} (hi : packOf i = some bs) (s : State)
    (hlen : s.codec.plen.toNat ≤ 8) : ∃ k, Answers i s k .ok 0 ∧ Appended s.codec k bs :=
  ⟨appendBytes bs s.codec, answers_of_pack hi s, appendBytes_appended bs s.codec hlen⟩

/-- Settles O18: the word's operand is the argument's low byte, and that byte is what the pack appends. -/
theorem packbAppendsOneByte : Obligations.PackbAppendsOneByte :=
  ⟨fun w hop => arg8_eq_ofNat w ▸ decode_of_op_packb hop, fun s _ hlen => pack_answers_appended rfl s hlen⟩

/-- Settles O19: the word's operand is the argument's low half, and its two bytes, low byte first, are what the pack
appends. -/
theorem packsAppendsTwoBytesLittleEndian : Obligations.PacksAppendsTwoBytesLittleEndian :=
  ⟨fun w hop => arg16_eq_ofNat w ▸ decode_of_op_packs hop, fun s _ hlen => pack_answers_appended rfl s hlen⟩

/-- Settles O20: the word's operand is the whole argument, and its four bytes, least significant first, are what the pack
appends. -/
theorem packiAppendsFourBytesLittleEndian : Obligations.PackiAppendsFourBytesLittleEndian :=
  ⟨fun w hop => argField_eq_ofNat w ▸ decode_of_op_packi hop, fun s _ hlen => pack_answers_appended rfl s hlen⟩

end Sys2Proof.Machine

namespace Sys2Proof.Machine

/-! ### The composed frame (R71, R111) -/

/-- The complement is taken on 16 bits: `K = 0xFFFF - C` (R111). -/
theorem trailer_toNat (c : Config) (bytes : List Byte) :
    (trailer c bytes).toNat = 0xFFFF - (c.crc16 bytes).toNat := by
  rw [trailer, BitVec.toNat_not]

/-- Storing a 16-bit value low byte first and reading it back little-endian gives the value. -/
theorem half_byteSlice (v : Half) : half (byteSlice v 0) (byteSlice v 1) = v :=
  (BitVec.extractLsb'_append_extractLsb'_eq_extractLsb' (by decide)).trans BitVec.extractLsb'_eq_self

/-- The first fourteen bytes of a composed frame are its body. -/
theorem composeFrame_getElem_body (c : Config) (opcode : Byte) (p : List Byte) {i : Nat} (h : i < 14) :
    (composeFrame c opcode p)[i] = (frameBody c opcode p)[i] := by
  rw [composeFrame, Vector.getElem_push_lt (by omega), Vector.getElem_push_lt h]

theorem composeFrame_take_body (c : Config) (opcode : Byte) (p : List Byte) :
    (composeFrame c opcode p).toList.take 14 = (frameBody c opcode p).toList := by
  simp [composeFrame, Vector.toList_push]

theorem composeFrame_getElem_magic (c : Config) (opcode : Byte) (p : List Byte) {i : Nat} (h : i < 4) :
    (composeFrame c opcode p)[i] = c.magic[i] := by
  rw [composeFrame_getElem_body c opcode p (by omega)]
  interval_cases i <;> rfl

/-- The parameter bytes from offset 6, with zeros after the last of them. -/
theorem composeFrame_getElem_param (c : Config) (opcode : Byte) (p : List Byte) {i : Nat} (h : i < 8) :
    (composeFrame c opcode p)[6 + i] = p.getD i 0 := by
  rw [composeFrame_getElem_body c opcode p (by omega)]
  interval_cases i <;> rfl

/-- The last two bytes, little-endian, are the trailer of the fourteen before them (R71). -/
theorem composeFrame_trailer (c : Config) (opcode : Byte) (p : List Byte) :
    half (composeFrame c opcode p)[14] (composeFrame c opcode p)[15] =
      trailer c ((composeFrame c opcode p).toList.take 14) := by
  rw [composeFrame_take_body]
  exact half_byteSlice (trailer c (frameBody c opcode p).toList)

/-- Settles O23: the layout byte by byte from R111's function, and the trailer's value from the complement it stores. -/
theorem composedFrameLayoutAndChecksum : Obligations.ComposedFrameLayoutAndChecksum := by
  intro opcode p _
  refine ⟨fun i h => composeFrame_getElem_magic hardware opcode p h, rfl, rfl, fun i h => ?_, ?_⟩
  · rw [composeFrame_getElem_param hardware opcode p h]
    split_ifs with hi
    · exact List.getD_eq_getElem p 0 hi
    · exact List.getD_eq_default p 0 (Nat.le_of_not_lt hi)
  · rw [← half_toNat, composeFrame_trailer, trailer_toNat]

end Sys2Proof.Machine

namespace Sys2Proof.Machine

/-! ### The answers of `CLASSIFY` (R122) -/

theorem decode_of_op_classify {w : CmdWord} (h : w.toNat / 2 ^ 32 = 0x07) : decode w = .ok .classify := by
  simp only [decode, opField_toNat, h]

/-- A buffer that the classifier accepts as a type is answered with the type's word, and nothing changes. -/
theorem answers_classify_of_holdsFrame (s : State) (t : FrameType) (h : HoldsFrame s.codec t) :
    Answers .classify s s.codec .ok (classifyData t) := by
  have hok : classifyFrame hardware s.codec = .ok t := (classifyFrame_eq_ok_iff s.codec t).mpr h
  rw [answers_iff]
  simp [opResult, classifyOp, hok]

/-- Settles O33: the classifier's outcome decides the answer. The word stated for each type is `classifyData` of it, evaluated
(R73, R81), and the three refusals are the classifier's, in R123's order. -/
theorem classifyAnswersTypeAndLength : Obligations.ClassifyAnswersTypeAndLength := by
  refine ⟨fun _ hop => decode_of_op_classify hop, fun s => ?_⟩
  have refused {st : Status} (h : classifyFrame hardware s.codec = .error st) : Answers .classify s s.codec st 0 :=
    answers_of_classify_error s .classify (.inl rfl) st h
  have accepted := answers_classify_of_holdsFrame s
  exact ⟨accepted .command, accepted .response, accepted .beginFrame, accepted .inventory, accepted .access,
    accepted .endFrame, accepted .work,
    fun hempty => refused (classifyFrame_of_empty hardware s.codec hempty),
    fun hne htag => refused (classifyFrame_of_unknown hardware s.codec hne htag),
    fun t htag hlen => refused (classifyFrame_of_length s.codec t htag.symm hlen)⟩

end Sys2Proof.Machine

namespace Sys2Proof.Machine

/-! ### The inventory decoder's numbers and places (R143 to R146) -/

/-- The checked index of a buffer, in range. -/
theorem getElem?_eq_some_byteAt {n : Nat} (b : Vector Byte n) {off : Nat} (h : off < n) :
    b[off]? = some (byteAt b off) := by
  rw [Vector.getElem?_eq_getElem h, byteAt_of_lt b off h]

/-- The two's-complement reading by the size of the pattern in place of its top bit (R10). -/
theorem sint_eq_ite {n : Nat} (v : BitVec n) :
    sint v = if v.toNat < 2 ^ (n - 1) then (v.toNat : Int) else (v.toNat : Int) - 2 ^ n := by
  unfold sint
  rw [BitVec.msb_eq_decide]
  by_cases h : v.toNat < 2 ^ (n - 1)
  · simp [h]
  · simp [h, Nat.le_of_not_lt h]

/-- The decoder's info length is that of the claims (R77). -/
theorem infoLength_eq_infoLen (k : Codec) : infoLength k.rx = infoLen k := rfl

theorem infoLength_le (rx : Vector Byte 64) : infoLength rx ≤ 65535 := by
  have hlo : rx[10].toNat < 256 := BitVec.isLt _
  have hhi : rx[11].toNat < 256 := BitVec.isLt _
  unfold infoLength le16
  omega

theorem dataStart_le (rx : Vector Byte 64) : dataStart rx ≤ 26 := by
  rw [dataStart_eq]
  split_ifs <;> omega

theorem telemSize_of_hasTelemetry {k : Codec} (h : HasTelemetry k) : telemSize k.rx = 8 := by
  rw [telemSize_eq_ite, if_pos h]

theorem telemSize_of_not_hasTelemetry {k : Codec} (h : ¬ HasTelemetry k) : telemSize k.rx = 0 := by
  rw [telemSize_eq_ite, if_neg h]

/-- Settles O38: the ranges come from that of the info length, and both adjustments are multiples of 4. -/
theorem infoLengthArithmetic : Obligations.InfoLengthArithmetic := by
  intro k
  have hmax := infoLength_le k.rx
  have hextra : extraBytes k.rx = ((infoLength k.rx : Int) - 3) * 4 := rfl
  have hlen : idLength k.rx = 4 * (infoLength k.rx : Int) - 16 - (if HasTelemetry k then 8 else 0) := by
    simpa [telemSize_eq_ite, infoLength_eq_infoLen] using idLength_eq_infoLen k
  refine ⟨by simp [infoLength, le16], hmax, hextra, by omega, by omega, hlen, by omega, ?_⟩
  split_ifs at hlen <;> omega

/-- In range, the committed length by the info length, and the committed bytes by the data start (R144 to R146). -/
theorem commitRecord_identifier_place (k : Codec) (hb : idOutOfRange k.rx = false) (tr : TagRecord) :
    (commitRecord k.rx tr).epclen.toNat + 16 + telemSize k.rx = 4 * infoLen k ∧
    ∀ i, (h : i < 48) → i < (commitRecord k.rx tr).epclen.toNat →
      k.rx[dataStart k.rx + telemSize k.rx + 2 + i]? = some (commitRecord k.rx tr).epc[i] := by
  obtain ⟨hlen, hbytes, -⟩ := commitRecord_identifier k hb tr
  have hinfo := idLength_eq_infoLen k
  exact ⟨by omega, hbytes⟩

/-- The telemetry registers after a commit with the block, read at the data start (R76, R145). -/
theorem commitRecord_telemetry_place (rx : Vector Byte 64) (tr : TagRecord) (h : frameTelem rx = true) :
    rx[dataStart rx]? = some (commitRecord rx tr).port ∧
    (∃ b, rx[dataStart rx + 1]? = some b ∧ (commitRecord rx tr).phase.toNat = b.toNat % 64) ∧
    rx[dataStart rx + 2]? = some (commitRecord rx tr).temp ∧
    (∃ b0 b1 b2 b3, rx[dataStart rx + 4]? = some b0 ∧ rx[dataStart rx + 5]? = some b1 ∧
      rx[dataStart rx + 6]? = some b2 ∧ rx[dataStart rx + 7]? = some b3 ∧
      (commitRecord rx tr).freq.toNat = le32 b0 b1 b2 b3) := by
  obtain ⟨hport, hphase, htemp, hfreq, -⟩ := commitRecord_telem rx tr h
  have hstart := dataStart_le rx
  have hread (j : Nat) (hj : j < 8) : rx[dataStart rx + j]? = some (byteAt rx (dataStart rx + j)) :=
    getElem?_eq_some_byteAt rx (by omega)
  refine ⟨hport ▸ hread 0 (by decide), ⟨_, hread 1 (by decide), ?_⟩, htemp ▸ hread 2 (by decide),
    _, _, _, _, hread 4 (by decide), hread 5 (by decide), hread 6 (by decide), hread 7 (by decide), ?_⟩
  · rw [hphase, BitVec.extractLsb'_toNat, Nat.shiftRight_zero]
  · rw [hfreq, wordAt_littleEndian, word_toNat]

/-- Settles O42: a completed decode is a commit in range; the two flags say whether it read the block, and the size of the
block says how far the identifier moved. -/
theorem decinvReadsTheTelemetryBlock : Obligations.DecinvReadsTheTelemetryBlock := by
  intro s k d h D hD
  obtain ⟨-, -, hb, rfl, -⟩ := decinv_ok_inv h
  rw [← dataStart_eq_ite] at hD
  subst hD
  obtain ⟨hlen, hbytes⟩ := commitRecord_identifier_place s.codec hb s.codec.tr
  simp only [Codec.setTr_tr]
  refine ⟨fun htelem => ?_, fun htelem => ?_⟩
  · have hflag := (frameTelem_iff s.codec).mpr htelem
    obtain ⟨hport, hphase, htemp, hfreq⟩ := commitRecord_telemetry_place s.codec.rx s.codec.tr hflag
    obtain ⟨-, -, -, -, hportV, hphaseV, htempV, hfreqV⟩ := commitRecord_telem s.codec.rx s.codec.tr hflag
    rw [telemSize_of_hasTelemetry htelem] at hlen hbytes
    exact ⟨hport, hphase, htemp, hfreq, sint_eq_ite _, sint_eq_ite _, hportV, hphaseV, htempV, hfreqV, hlen, hbytes⟩
  · have hflag : frameTelem s.codec.rx = false := Bool.eq_false_iff.mpr (htelem ∘ (frameTelem_iff s.codec).mp)
    obtain ⟨hport, hphase, htemp, hfreq, hportV, hphaseV, htempV, hfreqV⟩ :=
      commitRecord_noTelem s.codec.rx s.codec.tr hflag
    rw [telemSize_of_not_hasTelemetry htelem] at hlen hbytes
    exact ⟨hport, hphase, htemp, hfreq, hportV, hphaseV, htempV, hfreqV, hlen, hbytes⟩

/-! ### The identifier's bounds (R146) -/

/-- When the bounds test refuses an admitted, valid frame: the record stays (R146, R147). -/
theorem decinv_truncated_of (s : State) (h : Admitted s.codec) (hc : crcFlagged s.codec.rx = false)
    (hb : idOutOfRange s.codec.rx = true) : Answers .decinv s s.codec .truncatedFrame 0 := by
  rw [answers_iff]
  simp [opResult, decinvOp_of_admitted _ h, decodeFrame, hc, hb]

theorem idOutOfRange_iff (rx : Vector Byte 64) :
    idOutOfRange rx = true ↔ idLength rx < 0 ∨ (idStart rx : Int) + idLength rx > 64 :=
  decide_eq_true_iff

/-- An identifier in range is at most 48 bytes, and at most 36 on a first frame (R146). -/
theorem idLength_le_of_inRange (k : Codec) (hb : idOutOfRange k.rx = false) :
    idLength k.rx ≤ 48 ∧ (FirstFrame k → idLength k.rx ≤ 36) := by
  obtain ⟨n, hn, -, hmax, hend⟩ := idLength_of_inRange k.rx hb
  refine ⟨by omega, fun hfirst => ?_⟩
  have hdata : dataStart k.rx = 26 := by rw [dataStart_eq_ite, if_pos hfirst]
  have hstart := idStart_eq k.rx
  omega

/-- Settles O44: `S`, `T` and `L` are the decoder's own offset, block size and length, so the stated test is its bounds test,
and the two outcomes are those of the frame. -/
theorem decinvIdentifierBounds : Obligations.DecinvIdentifierBounds := by
  intro s hadm hvalid S T L hT hS hL
  rw [← telemSize_eq_ite] at hT
  rw [← dataStart_eq_ite, hT, ← idStart_eq] at hS
  rw [hT, ← idLength_eq_infoLen] at hL
  subst hS hL
  rw [← idOutOfRange_iff, Bool.not_eq_true]
  refine ⟨decinv_truncated_of s hadm hvalid, fun hb => ?_, idInRange_iff_accepted s.codec,
    idLength_le_of_inRange s.codec⟩
  obtain ⟨hlen, hbytes, -⟩ := commitRecord_identifier s.codec hb s.codec.tr
  refine ⟨_, _, decinv_ok_of s hadm hvalid hb, hlen, fun i h hi => hbytes i h ?_⟩
  omega

end Sys2Proof.Machine

namespace Sys2Proof.Machine

/-! ### The wider reads of the status decoder (R162, R163) -/

theorem argLe_eq_decide (w : CmdWord) : argLe w = decide (w.toNat / 256 % 2 = 1) := by
  have hbit : w.toNat % 2 ^ 32 / 2 ^ 8 % 2 = w.toNat / 256 % 2 := by omega
  rw [argLe, ← BitVec.testBit_toNat, argField_toNat, Nat.testBit_eq_decide_div_mod_eq, hbit]

theorem decode_of_op_rdi {w : CmdWord} (h : w.toNat / 2 ^ 32 = 0x0E) : decode w = .ok (.rdi (arg8 w) (argLe w)) := by
  simp only [decode, opField_toNat, h]

/-- An operation that is a bounded read answers `TruncatedFrame` and changes nothing when the read is out of range (R160). -/
theorem answers_truncated_of_boundedRead {i : Instr} {s : State} {off w : Nat} {d : Word}
    (hi : opResult hardware i s.codec = boundedRead s.codec off w d) (h : rxn s.codec < off + w) :
    Answers i s s.codec .truncatedFrame 0 := by
  rw [answers_iff, hi, boundedRead_of_gt _ _ _ _ h]
  exact ⟨rfl, rfl⟩

theorem byteAt_of_getElem?_eq_some {n : Nat} {v : Vector Byte n} {off : Nat} {b : Byte} (h : v[off]? = some b) :
    byteAt v off = b := by
  rw [byteAt_eq_getElem?, h, Option.getD_some]

/-- The spec's two's-complement reading is the library's (R10). -/
theorem sint_eq_toInt {n : Nat} (v : BitVec n) : sint v = v.toInt :=
  (BitVec.toInt_eq_msb_cond v).symm

/-- The number in the byte order `le` selects: the two orders are each other's bytes swapped (R162). -/
theorem halfAt_toNat {n : Nat} (v : Vector Byte n) (off : Nat) (le : Bool) :
    (halfAt v off le).toNat =
      if le then le16 (byteAt v off) (byteAt v (off + 1)) else be16 (byteAt v off) (byteAt v (off + 1)) := by
  cases le with
  | true => exact half_toNat _ _
  | false => exact half_toNat _ _

theorem wordAt_toNat {n : Nat} (v : Vector Byte n) (off : Nat) (le : Bool) :
    (wordAt v off le).toNat =
      if le then le32 (byteAt v off) (byteAt v (off + 1)) (byteAt v (off + 2)) (byteAt v (off + 3))
      else be32 (byteAt v off) (byteAt v (off + 1)) (byteAt v (off + 2)) (byteAt v (off + 3)) := by
  cases le with
  | true => exact word_toNat _ _ _ _
  | false => exact word_toNat _ _ _ _

/-- Settles O49: sign-extension keeps the two's-complement reading, so the data word reads as the 16-bit pattern does. That
the byte at `off + 1` exists bounds the read by the 64 stored bytes. -/
theorem rdsReturnsTheSignedValue : Obligations.RdsReturnsTheSignedValue := by
  intro s off b0 b1 le hlen h0 h1 v hv
  have hsize : off.toNat + 1 < 64 := (Vector.getElem?_eq_some_iff.mp h1).1
  have hrange : off.toNat + 2 ≤ rxn s.codec := Nat.le_min.mpr ⟨hlen, hsize⟩
  have hpattern : (halfAt s.codec.rx off.toNat le).toNat = v := by
    rw [halfAt_toNat, byteAt_of_getElem?_eq_some h0, byteAt_of_getElem?_eq_some h1, hv]
  refine ⟨_, ?_, answers_rds s off le hrange⟩
  rw [BitVec.toInt_signExtend_of_le (by decide), ← sint_eq_toInt, sint_eq_ite, hpattern]

/-- Settles O50: the bound decides between the two answers, and in range the four bytes stand below 64, so the buffer holds
each of them. -/
theorem rdiReturnsTheSignedValue : Obligations.RdiReturnsTheSignedValue := by
  refine ⟨fun w hop => arg8_eq_ofNat w ▸ argLe_eq_decide w ▸ decode_of_op_rdi hop, fun s off le =>
    ⟨fun hout => answers_truncated_of_boundedRead rfl hout, fun (hin : off.toNat + 4 ≤ rxn s.codec) => ?_⟩⟩
  have hstored : off.toNat + 4 ≤ 64 := hin.trans (rxn_le s.codec)
  exact ⟨_, _, _, _, _, getElem?_eq_some_byteAt s.codec.rx (by omega), getElem?_eq_some_byteAt s.codec.rx (by omega),
    getElem?_eq_some_byteAt s.codec.rx (by omega), getElem?_eq_some_byteAt s.codec.rx (by omega),
    wordAt_toNat s.codec.rx off.toNat le, (sint_eq_toInt _).symm, answers_rdi s off le hin⟩

end Sys2Proof.Machine

namespace Sys2Proof.Machine

/-! ### `COMPOSE` and the parameter buffer (R110) -/

/-- `COMPOSE` writes the transmit buffer or nothing. -/
theorem nextCodec_composeOp (c : Config) (opcode : Byte) (k : Codec) :
    ∃ tx valid, nextCodec k (composeOp c opcode k) = k.setTx tx valid := by
  unfold composeOp
  split
  · exact ⟨k.tx, k.txValid, rfl⟩
  · exact ⟨_, _, rfl⟩

/-- The registers after `COMPOSE` stand for the sequence they stood for before. -/
theorem StandsFor.compose {k : Codec} {p : List Byte} (h : StandsFor k p) (c : Config) (opcode : Byte) :
    StandsFor (nextCodec k (composeOp c opcode k)) p := by
  obtain ⟨tx, valid, hnext⟩ := nextCodec_composeOp c opcode k
  exact hnext ▸ h

theorem answers_compose_of_not_povf (s : State) (opcode : Byte) (h : s.codec.povf = false) :
    Answers (.compose opcode) s (s.codec.setTx (composeFrame hardware opcode (packedBytes s.codec)) true) .ok 0 := by
  rw [answers_iff]
  simp [opResult, composeOp, h]

theorem answers_parameterOverflow_iff (s : State) (opcode : Byte) :
    Answers (.compose opcode) s s.codec .parameterOverflow 0 ↔ s.codec.povf = true := by
  rw [answers_iff]
  cases h : s.codec.povf <;> simp [opResult, composeOp, h]

/-- A composed frame carries the parameter bytes from offset 6 on. -/
theorem composeFrame_getElem?_param (c : Config) (opcode : Byte) {p : List Byte} (hp : p.length ≤ 8) {i : Nat}
    (h : i < p.length) : (composeFrame c opcode p)[6 + i]? = some p[i] := by
  rw [Vector.getElem?_eq_getElem (by omega), composeFrame_getElem_param c opcode p (by omega),
    List.getD_eq_getElem p 0 h]

/-- Where two runs of bytes fit together, the frame carries the first and then the second. -/
theorem composeFrame_getElem?_append (c : Config) (opcode : Byte) {old new : List Byte}
    (hp : (old ++ new).length ≤ 8) :
    (∀ i, (h : i < old.length) → (composeFrame c opcode (old ++ new))[6 + i]? = some old[i]) ∧
    (∀ i, (h : i < new.length) → (composeFrame c opcode (old ++ new))[6 + old.length + i]? = some new[i]) := by
  refine ⟨fun i h => ?_, fun i h => ?_⟩
  · rw [composeFrame_getElem?_param c opcode hp (List.length_append ▸ by omega), List.getElem_append_left h]
  · rw [Nat.add_assoc, composeFrame_getElem?_param c opcode hp (List.length_append ▸ by omega),
      List.getElem_append_right' old h]
    simp only [Nat.add_comm]

/-- `COMPOSE` keeps the parameters, and packs after it extend them (R193). -/
theorem compose_packs_standsFor {s : State} {old new : List Byte} {is : List Instr} (opcode : Byte)
    (hold : StandsFor s.codec old) (hnew : PacksInOrder is new) :
    ∃ t u : State, exec (.compose opcode) s = .next t ∧ runOps is t = .next u ∧ StandsFor u.codec (old ++ new) := by
  have hkept := hold.compose hardware opcode
  obtain ⟨u, hrun, hu⟩ := runOps_packs hnew
    (s.answered (nextCodec s.codec (composeOp hardware opcode s.codec))
      (responseOf (composeOp hardware opcode s.codec)))
  exact ⟨_, u, rfl, hrun, hu ▸ hkept.append (appendBytes_appended new _ hkept.plen_le)⟩

/-! ### `POVF` is sticky (R23, R193) -/

/-- No operation but `PBRST` clears `POVF`. -/
theorem nextCodec_povf_of_ne_pbrst {i : Instr} {k : Codec} (hi : i ≠ .pbrst) (h : k.povf = true) :
    (nextCodec k (opResult hardware i k)).povf = true := by
  cases i with
  | pbrst => exact absurd rfl hi
  | packb v | packs v | packi v => exact appendBytes_povf _ k h
  | compose opcode =>
    obtain ⟨tx, valid, hnext⟩ := nextCodec_composeOp hardware opcode k
    exact (congrArg Codec.povf hnext).trans h
  | rxclr | trclr => exact h
  | rxpush b => exact (congrArg Codec.povf (pushRx_frame b k)).trans h
  | classify => exact (congrArg Codec.povf (nextCodec_classifyOp hardware k)).trans h
  | opcodeof => exact (congrArg Codec.povf (nextCodec_opcodeofOp hardware k)).trans h
  | verify => exact (congrArg Codec.povf (nextCodec_verifyOp hardware k)).trans h
  | decinv =>
    rcases decinvOp_cases k with ⟨-, e⟩ | ⟨-, e⟩ | ⟨_, -, -, -, e⟩ | ⟨_, -, -, ⟨-, e⟩ | ⟨-, -, e⟩ | ⟨-, -, e⟩⟩ <;>
      simp [opResult, e, h]
  | rdb off | rds off le | rdi off le | rdver off => exact (congrArg Codec.povf (nextCodec_boundedRead k _ _ _)).trans h

/-- What each operation of a run keeps, the run keeps. -/
theorem runOps_keeps {P : Codec → Prop} {is : List Instr} {s t : State}
    (hstep : ∀ i ∈ is, ∀ k, P k → P (nextCodec k (opResult hardware i k))) (hrun : runOps is s = .next t)
    (hs : P s.codec) : P t.codec := by
  induction is generalizing s with
  | nil =>
    cases hrun
    exact hs
  | cons i is ih =>
    rw [runOps, exec_eq_deliver, deliver_eq] at hrun
    exact ih (fun j hj => hstep j (List.mem_cons_of_mem i hj)) hrun (hstep i List.mem_cons_self s.codec hs)

theorem runOps_povf_of_no_pbrst {is : List Instr} {s t : State} (hno : .pbrst ∉ is) (hrun : runOps is s = .next t)
    (h : s.codec.povf = true) : t.codec.povf = true :=
  runOps_keeps (P := fun k => k.povf = true) (fun _ hi _ => nextCodec_povf_of_ne_pbrst fun e => hno (e ▸ hi)) hrun h

/-- Settles O26: the registers stand for the old bytes followed by the new ones, and their total decides the next `COMPOSE`; an
overflow is a set `POVF`, which only `PBRST` and reset clear. -/
theorem onlyPbrstRecoversTheParameterBuffer : Obligations.OnlyPbrstRecoversTheParameterBuffer := by
  refine ⟨fun s o t h => ?_, fun s old new is o o' hold hnew => ?_, fun s t is o o' hover hno hrun => ?_, fun s o => ?_,
    fun s rest o hp => ?_⟩
  · obtain ⟨tx, valid, hnext⟩ := nextCodec_composeOp hardware o s.codec
    rw [(exec_next_inv h).1.trans hnext]
    exact ⟨rfl, rfl, rfl⟩
  · obtain ⟨t, u, hcompose, hrun, hu⟩ := compose_packs_standsFor o hold hnew
    have hpovf : u.codec.povf = decide (8 < (old ++ new).length) := hu.2.2
    refine ⟨t, u, hcompose, hrun, fun hfits => ?_, fun hover => ?_⟩
    · have hclear : u.codec.povf = false := hpovf.trans (decide_eq_false (Nat.not_lt.mpr hfits))
      exact ⟨composeFrame hardware o' (old ++ new), hu.packedBytes hfits ▸ answers_compose_of_not_povf u o' hclear, rfl,
        composeFrame_getElem?_append hardware o' hfits⟩
    · exact (answers_parameterOverflow_iff u o').mpr (hpovf.trans (decide_eq_true hover))
  · have hset := (answers_parameterOverflow_iff s o).mp hover
    exact (answers_parameterOverflow_iff t o').mpr (runOps_povf_of_no_pbrst hno hrun hset)
  · exact ⟨_, exec_eq_deliver .pbrst s, _, answers_compose_of_not_povf _ o rfl⟩
  · exact ⟨_, step_of_reset s rest hp, _, answers_compose_of_not_povf _ o rfl⟩

end Sys2Proof.Machine

namespace Sys2Proof.Machine

/-! ### The operation table (R80 to R84) -/

/-- The operand slices of a word, by the number its `arg` field stands for (R80, R82). -/
theorem operands_of_arg {w : CmdWord} {arg : Nat} (harg : w.toNat % 2 ^ 32 = arg) :
    arg8 w = BitVec.ofNat 8 arg ∧ arg16 w = BitVec.ofNat 16 arg ∧ argField w = BitVec.ofNat 32 arg ∧
    argLe w = decide (arg / 256 % 2 = 1) := by
  have hbit : w.toNat / 256 % 2 = arg / 256 % 2 := by omega
  refine ⟨?_, ?_, ?_, by rw [argLe_eq_decide, hbit]⟩
  · rw [arg8_eq_ofNat, ← BitVec.toNat_inj, BitVec.toNat_ofNat, BitVec.toNat_ofNat]; omega
  · rw [arg16_eq_ofNat, ← BitVec.toNat_inj, BitVec.toNat_ofNat, BitVec.toNat_ofNat]; omega
  · rw [argField_eq_ofNat, harg]

/-- Settles O2: each operation code selects its row of `decode`, and the row's operands are the slices of `arg`. -/
theorem decodeReadsTheOperationTable : Obligations.DecodeReadsTheOperationTable := by
  intro w op arg hw harg
  have hop : w.toNat / 2 ^ 32 = op := by omega
  obtain ⟨h8, h16, h32, hle⟩ := operands_of_arg (show w.toNat % 2 ^ 32 = arg by omega)
  refine ⟨?_, ?_, ?_, ?_, ?_, ?_, ?_, ?_, ?_, ?_, ?_, ?_, ?_, ?_, ?_, ?_, fun hres => ?reserved⟩
  case reserved =>
    have hcode : opField w = BitVec.ofNat 8 op := by
      rw [← hop, ← opField_toNat, BitVec.ofNat_toNat, BitVec.setWidth_eq]
    rw [← hcode]
    exact decode_of_reserved w (hop ▸ hres)
  all_goals
    intro hrow
    simp only [decode, opField_toNat, hop, hrow, h8, h16, h32, hle]

/-! ### The round trips (R80, R82, R87) -/

/-- An operand written zero-extended into `arg` is sliced out whole. -/
theorem ofNat_toNat_setWidth {n : Nat} (hn : n ≤ 32) (v : BitVec n) : BitVec.ofNat n (v.setWidth 32 : Word).toNat = v := by
  rw [BitVec.toNat_setWidth_of_le hn, BitVec.ofNat_toNat, BitVec.setWidth_eq]

theorem ofNat_orderArg (off : Byte) (le : Bool) :
    BitVec.ofNat 8 (0#23 ++ BitVec.ofBool le ++ off : Word).toNat = off := by
  have hoff : off.toNat < 256 := off.isLt
  rw [orderArg_toNat, ← BitVec.toNat_inj, BitVec.toNat_ofNat]
  omega

/-- Bit 8 of the argument of `RDS` and `RDI` is the order bit. -/
theorem orderArg_bit_iff (off : Byte) (le : Bool) :
    (0#23 ++ BitVec.ofBool le ++ off : Word).toNat / 256 % 2 = 1 ↔ le = true := by
  have hoff : off.toNat < 256 := off.isLt
  rw [orderArg_toNat]
  cases le <;> simp <;> omega

/-- The word of an operation carries its operation code and its argument, at which the table selects the operation's row and
slices each operand out whole. -/
theorem decode_encode (i : Instr) : decode (encode i) = .ok i := by
  obtain ⟨pbrst, packb, packs, packi, compose, rxclr, rxpush, classify, opcodeof, verify, trclr, decinv, rdb, rds, rdi,
    rdver, -⟩ := decodeReadsTheOperationTable (encode i) _ _ (fields_toNat i.op i.arg) i.arg.isLt
  have byteArg := ofNat_toNat_setWidth (n := 8) (by decide)
  have halfArg := ofNat_toNat_setWidth (n := 16) (by decide)
  cases i with
  | pbrst => exact pbrst rfl
  | packb v => simpa only [Instr.arg, byteArg] using packb rfl
  | packs v => simpa only [Instr.arg, halfArg] using packs rfl
  | packi v => simpa only [Instr.arg, BitVec.ofNat_toNat, BitVec.setWidth_eq] using packi rfl
  | compose opcode => simpa only [Instr.arg, byteArg] using compose rfl
  | rxclr => exact rxclr rfl
  | rxpush b => simpa only [Instr.arg, byteArg] using rxpush rfl
  | classify => exact classify rfl
  | opcodeof => exact opcodeof rfl
  | verify => exact verify rfl
  | trclr => exact trclr rfl
  | decinv => exact decinv rfl
  | rdb off => simpa only [Instr.arg, byteArg] using rdb rfl
  | rds off le => simpa only [Instr.arg, ofNat_orderArg, orderArg_bit_iff, Bool.decide_eq_true] using rds rfl
  | rdi off le => simpa only [Instr.arg, ofNat_orderArg, orderArg_bit_iff, Bool.decide_eq_true] using rdi rfl
  | rdver off => simpa only [Instr.arg, byteArg] using rdver rfl

/-- Settles O3: every operation is well-formed, and its word decodes to it. -/
theorem decodeOfEncodeIsTheInstruction : Obligations.DecodeOfEncodeIsTheInstruction :=
  fun i _ => decode_encode i

/-- What a word decodes to has the word's operation code, and as argument the bits of the word that its row names. -/
theorem op_arg_of_decode {w : CmdWord} {i : Instr} (h : decode w = .ok i) :
    i.op.toNat = w.toNat / 2 ^ 32 ∧ i.arg.toNat = w.toNat % 2 ^ usedArgBits (w.toNat / 2 ^ 32) := by
  have h8 : (arg8 w).toNat = w.toNat % 2 ^ 8 := by rw [arg8_eq_ofNat, BitVec.toNat_ofNat]; omega
  have h16 : (arg16 w).toNat = w.toNat % 2 ^ 16 := by rw [arg16_eq_ofNat, BitVec.toNat_ofNat]; omega
  have h9 : (0#23 ++ BitVec.ofBool (argLe w) ++ arg8 w : Word).toNat = w.toNat % 2 ^ 9 := by
    rw [orderArg_toNat, argLe_eq_decide, h8]
    by_cases hbit : w.toNat / 256 % 2 = 1 <;> simp [hbit] <;> omega
  unfold decode at h
  rw [opField_toNat] at h
  split at h <;> cases h
  -- The rows of the table by their operand: none, a byte, a half, a word, an offset with an order.
  case h_1 hop | h_6 hop | h_8 hop | h_9 hop | h_10 hop | h_11 hop | h_12 hop =>
    rw [hop]
    exact ⟨rfl, (Nat.mod_one _).symm⟩
  case h_2 hop | h_5 hop | h_7 hop | h_13 hop | h_16 hop =>
    rw [hop]
    exact ⟨rfl, (BitVec.toNat_setWidth_of_le (by decide)).trans h8⟩
  case h_3 hop =>
    rw [hop]
    exact ⟨rfl, (BitVec.toNat_setWidth_of_le (by decide)).trans h16⟩
  case h_4 hop =>
    rw [hop]
    exact ⟨rfl, argField_toNat w⟩
  case h_14 hop | h_15 hop =>
    rw [hop]
    exact ⟨rfl, h9⟩

/-- A word that selects an operation decodes to one (R80). -/
theorem decode_ok_of_lt {w : CmdWord} (h : w.toNat / 2 ^ 32 < 16) : ∃ i, decode w = .ok i := by
  unfold decode
  rw [opField_toNat]
  split
  case h_17 =>
    simp only [imp_false] at *
    omega
  all_goals exact ⟨_, rfl⟩

theorem usedArgBits_le (op : Nat) : usedArgBits op ≤ 32 := by
  unfold usedArgBits
  split <;> decide

/-- Settles O4: the operation has the word's code and its named bits, and in a canonical word the others are 0. -/
theorem encodeOfDecodeIsTheWord : Obligations.EncodeOfDecodeIsTheWord := by
  intro w hw
  simp only [CmdWord.canonical, CmdWord.selectsOp, CmdWord.unusedArgZero, Bool.and_eq_true, decide_eq_true_eq] at hw
  obtain ⟨hop, hzero⟩ := hw
  obtain ⟨i, hi⟩ := decode_ok_of_lt hop
  obtain ⟨hiop, hiarg⟩ := op_arg_of_decode hi
  have hnamed : w.toNat % 2 ^ usedArgBits (w.toNat / 2 ^ 32) = w.toNat % 2 ^ 32 := by
    rw [← Nat.mod_mod_of_dvd _ (Nat.pow_dvd_pow 2 (usedArgBits_le _)), Nat.mod_eq_of_lt hzero]
  refine ⟨i, hi, BitVec.eq_of_toNat_eq ?_⟩
  rw [encode, fields_toNat, hiop, hiarg, hnamed]
  omega

/-- Settles O5: two such words decode to operations with one code and one argument, so with one command word. -/
theorem unnamedArgumentBitsAreIgnored : Obligations.UnnamedArgumentBitsAreIgnored := by
  intro w w' hop hargs
  by_cases hdef : w.toNat / 2 ^ 32 < 16
  · obtain ⟨i, hi⟩ := decode_ok_of_lt hdef
    obtain ⟨j, hj⟩ := decode_ok_of_lt (hop ▸ hdef)
    obtain ⟨hiop, hiarg⟩ := op_arg_of_decode hi
    obtain ⟨hjop, hjarg⟩ := op_arg_of_decode hj
    have hword : encode i = encode j := by
      apply BitVec.eq_of_toNat_eq
      rw [encode, encode, fields_toNat, fields_toNat, hiop, hiarg, hjop, hjarg, ← hop, hargs]
    have hsame : (Except.ok i : Except DecodeError Instr) = .ok j := by
      rw [← decode_encode i, hword, decode_encode]
    rw [hi, hj, hsame]
  · have hfield : opField w = opField w' := BitVec.eq_of_toNat_eq (by rw [opField_toNat, opField_toNat, hop])
    rw [decode_of_reserved w (by omega), decode_of_reserved w' (by omega), hfield]

end Sys2Proof.Machine

namespace Sys2Proof.Machine

/-! ### Runs and single steps (R12, R203) -/

/-- Settles O11: each step answers the next word by R12's function, so `n` of them apply the words in order. -/
theorem machineRunIsTheListOfCommandWordsApplied : Obligations.MachineRunIsTheListOfCommandWordsApplied := by
  intro ws s rest hp
  induction ws generalizing s with
  | nil => simp [runSteps, codecRun, ← show s.pending = rest from hp]
  | cons w ws ih =>
    rw [List.length_cons, runSteps, step_of_command s w _ hp]
    exact (ih _ rfl).trans (by simp [codecRun])

/-- Settles O7: the port hands the word to the operation it decodes to. -/
theorem stepRunsTheDecodedInstruction : Obligations.StepRunsTheDecodedInstruction := by
  intro s w rest i hp hdec _
  simp only [step, stepPort, hp, serve, serveWord, hdec]
  rfl

theorem codecStep_of_reserved (c : Config) (w : CmdWord) (k : Codec) (h : 16 ≤ w.toNat / 2 ^ 32) :
    codecStep c w k = (k, ⟨.illegalOp, 0⟩) := by
  rw [codecStep, wordResult, decode_of_reserved w h]
  rfl

/-- Settles O8: a reserved code decodes to no operation, and R12's function then changes nothing. -/
theorem reservedOperationAnswersIllegalOp : Obligations.ReservedOperationAnswersIllegalOp := by
  intro s w rest hp hres
  rw [step_of_command s w rest hp, codecStep_of_reserved hardware w s.codec hres]

/-- Settles O9: the two cases of a step that are no command word. -/
theorem resetEventAndIdleStep : Obligations.ResetEventAndIdleStep :=
  ⟨step_of_reset, step_of_idle⟩

/-- The end of an operation changes the codec only together with the status `OK` (R176). -/
theorem nextCodec_of_not_ok {r : OpResult} (h : (responseOf r).status ≠ .ok) (k : Codec) : nextCodec k r = k := by
  cases r with
  | raise st d => rfl
  | complete k' d => exact absurd rfl h

/-- Settles O54: a raised status carries no state, and the step's response is the one R12's function gives. -/
theorem everyFailureChangesNothing : Obligations.EveryFailureChangesNothing := by
  intro s t w rest r hp hstep hrsps hr
  rw [step_of_command s w rest hp] at hstep
  cases hstep
  have hresp : responseOf (wordResult hardware w s.codec) = r := by simpa [codecStep] using hrsps
  exact nextCodec_of_not_ok (hresp ▸ hr) s.codec

/-- Settles O6: the two fields are concatenated, and the nine codes are evaluated. -/
theorem responseWordLayout : Obligations.ResponseWordLayout :=
  ⟨fun r => append_toNat (statusCode r.status) r.data, rfl⟩

end Sys2Proof.Machine

namespace Sys2Proof.Machine

/-! ### What each operation writes (R50, R176) -/

/-- The operations that only read: `CLASSIFY`, `OPCODEOF`, `VERIFY` and the four reads of the status decoder (R56). -/
def readsOnly : Instr → Prop
  | .classify | .opcodeof | .verify | .rdb _ | .rds _ _ | .rdi _ _ | .rdver _ => True
  | .pbrst | .packb _ | .packs _ | .packi _ | .compose _ | .rxclr | .rxpush _ | .trclr | .decinv => False

/-- A reading operation leaves the codec as it is, whatever it answers. -/
theorem nextCodec_of_readsOnly (c : Config) {i : Instr} (hi : readsOnly i) (k : Codec) :
    nextCodec k (opResult c i k) = k := by
  cases i with
  | classify => exact nextCodec_classifyOp c k
  | opcodeof => exact nextCodec_opcodeofOp c k
  | verify => exact nextCodec_verifyOp c k
  | rdb off | rds off le | rdi off le | rdver off => exact nextCodec_boundedRead k _ _ _
  | pbrst | packb v | packs v | packi v | compose opcode | rxclr | rxpush b | trclr | decinv => exact hi.elim

/-- `DECINV` writes the tag record or nothing. -/
theorem nextCodec_decinvOp (c : Config) (k : Codec) : ∃ tr, nextCodec k (decinvOp c k) = k.setTr tr := by
  unfold decinvOp decodeFrame
  split
  · exact ⟨k.tr, rfl⟩
  · split_ifs <;> [exact ⟨k.tr, rfl⟩; exact ⟨k.tr, rfl⟩; exact ⟨_, rfl⟩; exact ⟨k.tr, rfl⟩]

/-- Settles O55: an operation's own frame lemma says which registers it may write; the rest is how an answer is delivered. -/
theorem eachOperationWritesOnlyItsSpace : Obligations.EachOperationWritesOnlyItsSpace := by
  intro i s t h
  obtain ⟨hcodec, hpending, hrsps⟩ := exec_next_inv h
  have reads (hi : readsOnly i) : t.codec = s.codec ∧ ∀ sp a, spaceByte t.codec sp a = spaceByte s.codec sp a := by
    rw [hcodec, nextCodec_of_readsOnly hardware hi]
    exact ⟨rfl, fun _ _ => rfl⟩
  refine ⟨⟨_, hrsps⟩, hpending, ?_⟩
  cases i with
  | pbrst | rxclr | trclr => rw [hcodec]; rfl
  | packb v | packs v | packi v => rw [hcodec]; exact appendBytes_frame _ s.codec
  | compose opcode =>
    obtain ⟨tx, valid, hnext⟩ := nextCodec_composeOp hardware opcode s.codec
    rw [hcodec.trans hnext]
    rfl
  | rxpush b => rw [hcodec]; exact pushRx_frame b s.codec
  | decinv =>
    obtain ⟨tr, hnext⟩ := nextCodec_decinvOp hardware s.codec
    rw [hcodec.trans hnext]
    rfl
  | classify | opcodeof | verify | rdb off | rds off le | rdi off le | rdver off => exact reads trivial

/-- What an operation answers depends on the codec alone. -/
theorem Answers.of_codec_eq {i : Instr} {s t : State} {k : Codec} {st : Status} {d : Word} (h : Answers i s k st d)
    (ht : t.codec = s.codec) : Answers i t k st d := by
  rw [answers_iff] at h ⊢
  rwa [ht]

/-- Settles O56: a reading operation leaves the codec, and its answer depends on nothing else. -/
theorem readingOperationsAreIdempotent : Obligations.ReadingOperationsAreIdempotent := by
  intro i s hreads
  have hi : readsOnly i := by cases i <;> exact hreads
  have answered : Answers i s s.codec (responseOf (opResult hardware i s.codec)).status
      (responseOf (opResult hardware i s.codec)).data :=
    (answers_iff ..).mpr ⟨nextCodec_of_readsOnly hardware hi s.codec, rfl⟩
  exact ⟨_, _, answered, fun t ht => ht ▸ answered.of_codec_eq ht⟩

theorem txValid_of_ne_compose {i : Instr} {s t : State} (hi : ∀ o, i ≠ .compose o) (h : exec i s = .next t) :
    t.codec.txValid = s.codec.txValid := by
  obtain ⟨-, -, hframe⟩ := eachOperationWritesOnlyItsSpace i s t h
  cases i with
  | compose o => exact absurd rfl (hi o)
  | pbrst | packb v | packs v | packi v | rxclr | rxpush b | trclr | decinv =>
    exact (congrArg Codec.txValid hframe :)
  | classify | opcodeof | verify | rdb off | rds off le | rdi off le | rdver off => exact congrArg Codec.txValid hframe.1

/-- Settles O58: only `COMPOSE` may write the bit, and it sets it exactly when `POVF` is 0. -/
theorem txValidIsSetByComposeOnly : Obligations.TxValidIsSetByComposeOnly := by
  intro i s t h
  by_cases hi : ∃ o, i = .compose o
  · obtain ⟨o, rfl⟩ := hi
    rw [(exec_next_inv h).1]
    cases hpovf : s.codec.povf with
    | true => simp [opResult, composeOp, hpovf]
    | false => simp [opResult, composeOp, hpovf]
  · have hsame := txValid_of_ne_compose (fun o ho => hi ⟨o, ho⟩) h
    exact ⟨fun hset => hsame.trans hset, fun hclear hset => absurd (hsame.symm.trans hset) (by simp [hclear])⟩

end Sys2Proof.Machine

namespace Sys2Proof.Machine

/-! ### The invariant (R21 to R38, R42) -/

theorem packerInv_empty (k : Codec) : PackerInv (k.setPacker (Vector.replicate 8 0) 0 false) :=
  ⟨by simp, fun i hi _ => by simp, fun h => by simp at h⟩

theorem receiveInv_empty (k : Codec) : ReceiveInv (k.setRx (Vector.replicate 64 0) 0) :=
  ⟨by simp, fun i hi _ => by simp⟩

theorem recordInv_empty : RecordInv TagRecord.empty :=
  ⟨⟨rfl, rfl, rfl⟩, fun _ => ⟨rfl, rfl, rfl⟩, by decide, fun i hi _ => by simp [TagRecord.empty]⟩

/-- Settles O15: the empty buffers, the empty record, and no frame composed yet. -/
theorem resetMeetsTheInvariant : Obligations.ResetMeetsTheInvariant :=
  ⟨packerInv_empty Codec.reset, receiveInv_empty Codec.reset, recordInv_empty, fun _ => rfl,
    fun h => absurd h (by decide)⟩

/-- The four valid bits of the telemetry fields stay equal under a commit: it sets all or leaves all (R38, R147). -/
theorem commitRecord_telemetryValid_eq {tr : TagRecord} (rx : Vector Byte 64)
    (h : tr.portV = tr.phaseV ∧ tr.phaseV = tr.tempV ∧ tr.tempV = tr.freqV) :
    (commitRecord rx tr).portV = (commitRecord rx tr).phaseV ∧
    (commitRecord rx tr).phaseV = (commitRecord rx tr).tempV ∧
    (commitRecord rx tr).tempV = (commitRecord rx tr).freqV := by
  cases htelem : frameTelem rx with
  | true =>
    obtain ⟨-, -, -, -, hport, hphase, htemp, hfreq⟩ := commitRecord_telem rx tr htelem
    simp [hport, hphase, htemp, hfreq]
  | false =>
    obtain ⟨-, -, -, -, hport, hphase, htemp, hfreq⟩ := commitRecord_noTelem rx tr htelem
    simpa [hport, hphase, htemp, hfreq] using h

/-- A commit in range keeps the record's relations: the identifier's length is a multiple of four up to 48. -/
theorem commitRecord_keeps_inv {k : Codec} (hb : idOutOfRange k.rx = false) {tr : TagRecord} (h : RecordInv tr) :
    RecordInv (commitRecord k.rx tr) := by
  obtain ⟨hvalid, -⟩ := h
  obtain ⟨n, hn, hmod, hmax, -⟩ := idLength_of_inRange k.rx hb
  obtain ⟨hlen, -, hzero⟩ := commitRecord_identifier k hb tr
  have hset := (commitRecord_id k.rx tr).1
  refine ⟨commitRecord_telemetryValid_eq k.rx hvalid, fun hclear => ?_, ⟨by omega, by omega⟩, hzero⟩
  exact absurd (hset.symm.trans hclear) (by decide)

/-- `DECINV` keeps the record's relations: it commits in range or leaves the codec. -/
theorem decinv_keeps_recordInv {k : Codec} (h : RecordInv k.tr) :
    RecordInv (nextCodec k (decinvOp hardware k)).tr := by
  rcases decinvOp_cases k with ⟨-, e⟩ | ⟨-, e⟩ | ⟨_, -, -, -, e⟩ | ⟨_, -, -, ⟨-, e⟩ | ⟨-, -, e⟩ | ⟨-, hb, e⟩⟩ <;> rw [e]
  case inr.inr.inr.inr.inr => exact commitRecord_keeps_inv hb h
  all_goals exact h

theorem packedBytes_length_le (k : Codec) : (packedBytes k).length ≤ 8 := by
  simp [packedBytes]

/-- `COMPOSE` keeps what `TX` holds: it writes a composed frame or leaves the codec. -/
theorem compose_keeps_transmitInv {k : Codec} (opcode : Byte) (h : TransmitInv hardware k) :
    TransmitInv hardware (nextCodec k (composeOp hardware opcode k)) := by
  unfold composeOp
  split
  · exact h
  · exact ⟨fun hclear => absurd hclear (by simp), fun _ => ⟨opcode, packedBytes k, packedBytes_length_le k, rfl⟩⟩

/-- Every operation keeps the invariant: it writes one part of the codec, whose own lemma says that it keeps its form. -/
theorem opResult_keeps_inv (i : Instr) {k : Codec} (h : Inv k) : Inv (nextCodec k (opResult hardware i k)) := by
  have reads (hi : readsOnly i) : Inv (nextCodec k (opResult hardware i k)) := by
    rwa [nextCodec_of_readsOnly hardware hi]
  obtain ⟨hpacker, hreceive, hrecord, htransmit⟩ := h
  cases i with
  | pbrst => exact ⟨packerInv_empty k, hreceive, hrecord, htransmit⟩
  | packb v | packs v | packi v =>
    refine ⟨appendBytes_keeps_inv _ k hpacker, ?_⟩
    rw [opResult, packOp, nextCodec_complete, appendBytes_frame]
    exact ⟨hreceive, hrecord, htransmit⟩
  | compose opcode =>
    have hnew := compose_keeps_transmitInv opcode htransmit
    obtain ⟨tx, valid, hnext⟩ := nextCodec_composeOp hardware opcode k
    rw [opResult, hnext]
    exact ⟨hpacker, hreceive, hrecord, hnext ▸ hnew⟩
  | rxclr => exact ⟨hpacker, receiveInv_empty k, hrecord, htransmit⟩
  | rxpush b =>
    have hnew := pushRx_keeps_inv b k hreceive
    rw [opResult, rxpushOp, nextCodec_complete]
    rw [pushRx_frame] at hnew ⊢
    exact ⟨hpacker, hnew, hrecord, htransmit⟩
  | trclr => exact ⟨hpacker, hreceive, recordInv_empty, htransmit⟩
  | decinv =>
    have hnew := decinv_keeps_recordInv hrecord
    obtain ⟨tr, hnext⟩ := nextCodec_decinvOp hardware k
    rw [opResult, hnext]
    exact ⟨hpacker, hreceive, hnext ▸ hnew, htransmit⟩
  | classify | opcodeof | verify | rdb off | rds off le | rdi off le | rdver off => exact reads trivial

/-- Settles O16: a step idles, resets, or answers a command word, which leaves the codec or runs one operation. -/
theorem stepKeepsTheInvariant : Obligations.StepKeepsTheInvariant := by
  intro s t h hstep
  rcases step_cases hstep with ⟨-, rfl⟩ | ⟨rest, -, rfl⟩ | ⟨w, rest, -, rfl⟩
  · exact h
  · exact resetMeetsTheInvariant
  · rcases codecStep_cases hardware w s.codec with hsame | ⟨i, d, -, hres⟩
    · exact hsame.symm ▸ h
    · simpa [hres] using opResult_keeps_inv i h

end Sys2Proof.Machine

namespace Sys2Proof.Machine

/-! ### The packer and the unbounded sequence (R24, R100 to R104) -/

/-- Settles O17: `PBRST` writes the empty packer registers. -/
theorem pbrstEmptiesTheParameterBuffer : Obligations.PbrstEmptiesTheParameterBuffer := by
  intro s
  exact ⟨Vector.replicate 8 0, fun i h => Vector.getElem_replicate h, rfl⟩

theorem standsFor_empty (k : Codec) : StandsFor (k.setPacker (Vector.replicate 8 0) 0 false) [] :=
  ⟨rfl, fun i hi => by simp, rfl⟩

/-- A pack extends the sequence the registers stand for by its bytes. -/
theorem pack_answers_standsFor {i : Instr} {bs p : List Byte} (hi : packOf i = some bs) {s : State}
    (h : StandsFor s.codec p) : ∃ k, Answers i s k .ok 0 ∧ StandsFor k (p ++ bs) :=
  ⟨appendBytes bs s.codec, answers_of_pack hi s, h.append (appendBytes_appended bs s.codec h.plen_le)⟩

/-- Settles O21: the empty registers stand for the empty sequence, packs extend it, and `COMPOSE` reads `POVF` and the packed
bytes, which the relation gives. -/
theorem packerRefinesTheUnboundedSequence : Obligations.PackerRefinesTheUnboundedSequence := by
  refine ⟨fun s => ⟨_, rfl, standsFor_empty s.codec⟩, fun s p h => ?_⟩
  refine ⟨fun v => pack_answers_standsFor rfl h, fun v => pack_answers_standsFor rfl h,
    fun v => pack_answers_standsFor rfl h, fun o hover => ?_, fun o hfits => ?_⟩
  · exact (answers_parameterOverflow_iff s o).mpr (h.2.2.trans (decide_eq_true hover))
  · rw [← h.packedBytes hfits]
    exact answers_compose_of_not_povf s o (h.2.2.trans (decide_eq_false (Nat.not_lt.mpr hfits)))

/-- The two bytes of the low half and of the high half of a 32-bit value are its four bytes. -/
theorem bytes_of_halves (v : Word) :
    [BitVec.ofNat 8 (BitVec.ofNat 16 v.toNat).toNat, BitVec.ofNat 8 ((BitVec.ofNat 16 v.toNat).toNat / 256)] ++
      [BitVec.ofNat 8 (BitVec.ofNat 16 (v.toNat / 2 ^ 16)).toNat,
        BitVec.ofNat 8 ((BitVec.ofNat 16 (v.toNat / 2 ^ 16)).toNat / 256)] =
    ([BitVec.ofNat 8 v.toNat, BitVec.ofNat 8 (v.toNat / 2 ^ 8), BitVec.ofNat 8 (v.toNat / 2 ^ 16),
      BitVec.ofNat 8 (v.toNat / 2 ^ 24)] : List Byte) := by
  simp only [List.cons_append, List.nil_append, List.cons.injEq, ← BitVec.toNat_inj, BitVec.toNat_ofNat, and_true]
  omega

/-- Settles O22: appending two runs of bytes one after the other is appending both, and the runs together are the wider
value's bytes. -/
theorem widerPacksAreNarrowerPacksInOrder : Obligations.WiderPacksAreNarrowerPacksInOrder := by
  refine ⟨fun s v => ⟨_, _, _, answers_of_pack rfl s, answers_of_pack rfl s, answers_of_pack rfl _, ?_⟩,
    fun s v => ⟨_, _, _, answers_of_pack rfl s, answers_of_pack rfl s, answers_of_pack rfl _, ?_⟩⟩
  · exact appendBytes_append [_] [_] s.codec
  · rw [← bytes_of_halves]
    exact appendBytes_append _ _ s.codec

/-! ### `COMPOSE` (R110, R111) -/

/-- The packed bytes, padded with zeros: what stands in `PB` below `PLEN`. -/
theorem packedBytes_getD {k : Codec} {i : Nat} (h : i < 8) :
    (packedBytes k).getD i 0 = if i < k.plen.toNat then k.pb[i] else 0 := by
  split_ifs with hi
  · simp [packedBytes, List.getD_eq_getElem?_getD, hi, h]
  · simp [packedBytes, List.getD_eq_getElem?_getD, hi]

/-- Settles O24: `TX` becomes the composed frame of the packed bytes, whose layout is R111's. -/
theorem composeWritesTheFrame : Obligations.ComposeWritesTheFrame := by
  intro s opcode hpovf _
  refine ⟨_, answers_compose_of_not_povf s opcode hpovf, fun i h => composeFrame_getElem_magic hardware opcode _ h, rfl,
    rfl, fun i h => ?_, ?_⟩
  · rw [composeFrame_getElem_param hardware opcode _ h, packedBytes_getD h]
  · rw [← half_toNat, composeFrame_trailer, trailer_toNat]

/-- Settles O25: the test of `POVF` comes before every write. -/
theorem composeRejectsMoreThanEightBytes : Obligations.ComposeRejectsMoreThanEightBytes :=
  fun s opcode h => (answers_parameterOverflow_iff s opcode).mpr h

end Sys2Proof.Machine

namespace Sys2Proof.Machine

/-! ### `VERIFY` on a Command frame (R113) -/

/-- A Command frame whose trailers agree is answered `OK`, with both. -/
theorem answers_verify_of_eq {s : State} (h : HoldsFrame s.codec .command)
    (heq : storedTrailer s.codec.rx = expectedTrailer hardware s.codec.rx) :
    Answers .verify s s.codec .ok (verifyData (expectedTrailer hardware s.codec.rx) (storedTrailer s.codec.rx)) := by
  rw [answers_iff]
  simp [opResult, verifyOp, (classifyFrame_eq_ok_iff _ _).mpr h, heq]

/-- A Command frame whose trailers differ is answered `ChecksumMismatch`, with both. -/
theorem answers_verify_of_ne {s : State} (h : HoldsFrame s.codec .command)
    (hne : storedTrailer s.codec.rx ≠ expectedTrailer hardware s.codec.rx) :
    Answers .verify s s.codec .checksumMismatch
      (verifyData (expectedTrailer hardware s.codec.rx) (storedTrailer s.codec.rx)) := by
  rw [answers_iff]
  simp [opResult, verifyOp, (classifyFrame_eq_ok_iff _ _).mpr h, hne]

/-- The two halves of the data word of `VERIFY` are equal exactly when the trailers are. -/
theorem verifyData_halves_eq_iff (expected stored : Half) :
    (verifyData expected stored).toNat / 2 ^ 16 = (verifyData expected stored).toNat % 2 ^ 16 ↔ stored = expected := by
  have hstored : stored.toNat < 2 ^ 16 := stored.isLt
  rw [verifyData_toNat, ← BitVec.toNat_inj]
  omega

/-- Settles O27: the data word holds the two trailers, and `VERIFY` compares what it holds. -/
theorem verifyComparesTheTrailers : Obligations.VerifyComparesTheTrailers := by
  intro s h
  refine ⟨_, ?_, fun heq => answers_verify_of_eq h ((verifyData_halves_eq_iff _ _).mp heq),
    fun hne => answers_verify_of_ne h (mt (verifyData_halves_eq_iff _ _).mpr hne)⟩
  rw [verifyData_toNat, expectedTrailer, trailer_toNat, storedTrailer, half_toNat]

/-! ### A composed frame received again (R112) -/

/-- The stored bytes of a receive buffer that holds a composed frame. -/
theorem LoopedBack.rx_eq {k : Codec} {o : Byte} {p : List Byte} (h : LoopedBack k)
    (htx : k.tx = composeFrame hardware o p) {i : Nat} (hi : i < 16) : k.rx[i] = (composeFrame hardware o p)[i] := by
  rw [h.2 i hi]
  simp only [htx]

/-- A composed frame is a Command frame: its first byte is `MAGIC[0]`, the Command tag (R6). -/
theorem LoopedBack.holdsFrame {k : Codec} {o : Byte} {p : List Byte} (h : LoopedBack k)
    (htx : k.tx = composeFrame hardware o p) : HoldsFrame k .command := by
  refine ⟨?_, h.1⟩
  rw [h.rx_eq htx (by decide), composeFrame_getElem_magic hardware o p (by decide)]
  exact hardware_wellFormed.1

/-- The trailer a composed frame carries is the one `VERIFY` computes. -/
theorem LoopedBack.trailers_eq {k : Codec} {o : Byte} {p : List Byte} (h : LoopedBack k)
    (htx : k.tx = composeFrame hardware o p) : storedTrailer k.rx = expectedTrailer hardware k.rx := by
  have hbody : k.rx.toList.take 14 = (composeFrame hardware o p).toList.take 14 := by
    apply List.ext_getElem
    · simp
    · intro i hi _
      have hi14 : i < 14 := by simpa using hi
      simpa using h.rx_eq htx (i := i) (by omega)
  rw [expectedTrailer, hbody, ← composeFrame_trailer, storedTrailer, h.rx_eq htx (by decide), h.rx_eq htx (by decide)]

/-- `OPCODEOF` returns the opcode byte whether or not the table defines it (R130). -/
theorem answers_opcodeof {s : State} (h : 6 ≤ s.codec.rxlen.toNat) :
    Answers .opcodeof s s.codec (if (hardware.opcodeTable s.codec.rx[5]).isSome then .ok else .unknownOpcode)
      (s.codec.rx[5].setWidth 32) := by
  have hin : ¬ rxn s.codec < 6 := by unfold rxn; omega
  rw [answers_iff]
  cases htable : hardware.opcodeTable s.codec.rx[5] <;> simp [opResult, opcodeofOp, hin, htable]

/-- What a composed frame answers once it is received: Command of length 16, its opcode, and a checksum that holds. -/
theorem LoopedBack.answers {u : State} {o : Byte} {p : List Byte} (h : LoopedBack u.codec)
    (htx : u.codec.tx = composeFrame hardware o p) :
    Answers .classify u u.codec .ok 0x00001000 ∧
    Answers .opcodeof u u.codec (if (hardware.opcodeTable o).isSome then .ok else .unknownOpcode) (o.setWidth 32) ∧
    ∃ d : Word, Answers .verify u u.codec .ok d := by
  have hframe := h.holdsFrame htx
  have hopcode : u.codec.rx[5] = o := h.rx_eq htx (by decide)
  have hlen := h.1
  refine ⟨answers_classify_of_holdsFrame u .command hframe, ?_, _, answers_verify_of_eq hframe (h.trailers_eq htx)⟩
  exact hopcode ▸ answers_opcodeof (by omega)

/-- Settles O28: `COMPOSE` leaves a composed frame in `TX`, which received again gives these answers. -/
theorem composedFrameSurvivesTheRoundTrip : Obligations.ComposedFrameSurvivesTheRoundTrip := by
  intro s o hpovf
  refine ⟨_, answers_compose_of_not_povf s o hpovf, fun u htx h => ?_⟩
  obtain ⟨hclassify, hopcodeof, hverify⟩ := h.answers htx
  exact ⟨hclassify, ⟨_, BitVec.toNat_setWidth_of_le (by decide), hopcodeof⟩, hverify⟩

end Sys2Proof.Machine

namespace Sys2Proof.Machine

/-! ### The receive buffer (R120, R121) -/

/-- Settles O30: `RXCLR` writes the empty receive buffer. -/
theorem rxclrEmptiesTheReceiveBuffer : Obligations.RxclrEmptiesTheReceiveBuffer := by
  intro s
  exact ⟨Vector.replicate 64 0, fun i h => Vector.getElem_replicate h, rfl⟩

/-- `RXPUSH` answers `OK` with the byte pushed. -/
theorem answers_rxpush (s : State) (b : Byte) : Answers (.rxpush b) s (pushRx b s.codec) .ok 0 := rfl

/-- Everything a push does, with room or without, from a length in its range. -/
theorem pushRx_spec (b : Byte) {k : Codec} (h : k.rxlen.toNat ≤ 65) :
    (pushRx b k).rxlen.toNat = min (k.rxlen.toNat + 1) 65 ∧
    ∀ i, (hi : i < 64) → (pushRx b k).rx[i] = if i = k.rxlen.toNat then b else k.rx[i] := by
  by_cases hroom : k.rxlen.toNat < 64
  · obtain ⟨hlen, hbytes⟩ := pushRx_of_lt b k hroom
    exact ⟨by omega, hbytes⟩
  · rw [pushRx_of_ge b k (by omega)]
    refine ⟨?_, fun i hi => ?_⟩
    · rw [Codec.setRx_rxlen, Nat.min_eq_right (by omega)]
      rfl
    · rw [if_neg (by omega), Codec.setRx_rx]

/-- Settles O31: a push writes the receive buffer only, as its specification says. -/
theorem rxpushAppendsOneByte : Obligations.RxpushAppendsOneByte := by
  intro s b h
  obtain ⟨hlen, hbytes⟩ := pushRx_spec b h
  refine ⟨(pushRx b s.codec).rx, (pushRx b s.codec).rxlen, ?_, hlen, hbytes⟩
  have hframe : pushRx b s.codec = { s.codec with rx := (pushRx b s.codec).rx, rxlen := (pushRx b s.codec).rxlen } :=
    pushRx_frame b s.codec
  rw [← hframe]
  exact answers_rxpush s b

/-- Several pushes, first byte first: the receive side of `RXLOAD` (R88). -/
def pushAll (bs : List Byte) (k : Codec) : Codec := bs.foldl (fun k b => pushRx b k) k

@[simp] theorem pushAll_cons (b : Byte) (bs : List Byte) (k : Codec) :
    pushAll (b :: bs) k = pushAll bs (pushRx b k) := rfl

/-- Pushing leaves the transmit buffer alone. -/
@[simp] theorem pushAll_tx (bs : List Byte) (k : Codec) : (pushAll bs k).tx = k.tx := by
  induction bs generalizing k with
  | nil => rfl
  | cons b bs ih => rw [pushAll_cons, ih, pushRx_frame, Codec.setRx_tx]

/-- Bytes that fit are stored in order from `RXLEN` on. -/
theorem pushAll_spec (bs : List Byte) {k : Codec} (h : k.rxlen.toNat + bs.length ≤ 64) :
    (pushAll bs k).rxlen.toNat = k.rxlen.toNat + bs.length ∧
    (∀ i, (hi : i < 64) → i < k.rxlen.toNat → (pushAll bs k).rx[i] = k.rx[i]) ∧
    ∀ j, (hj : j < bs.length) → (pushAll bs k).rx[k.rxlen.toNat + j] = bs[j] := by
  induction bs generalizing k with
  | nil => exact ⟨rfl, fun _ _ _ => rfl, fun j hj => absurd hj (Nat.not_lt_zero j)⟩
  | cons b bs ih =>
    rw [List.length_cons] at h
    obtain ⟨hlen, hbytes⟩ := pushRx_of_lt b k (by omega)
    obtain ⟨ihlen, ihold, ihnew⟩ := ih (k := pushRx b k) (by omega)
    refine ⟨by rw [pushAll_cons, List.length_cons]; omega, fun i hi hold => ?_, fun j hj => ?_⟩
    · simp only [pushAll_cons]
      rw [ihold i hi (by omega), hbytes i hi, if_neg (by omega)]
    · rw [List.length_cons] at hj
      simp only [pushAll_cons]
      cases j with
      | zero => rw [ihold _ (by omega) (by omega), hbytes _ (by omega), if_pos (by omega), List.getElem_cons_zero]
      | succ j =>
        simp only [List.getElem_cons_succ, ← ihnew j (by omega), hlen, Nat.add_assoc, Nat.add_comm 1 j]

/-- Clearing the buffer and pushing the bytes of `TX` leaves the composed frame and nothing else. -/
theorem loopedBack_pushAll (k : Codec) : LoopedBack (pushAll k.tx.toList (k.setRx (Vector.replicate 64 0) 0)) := by
  obtain ⟨hlen, -, hnew⟩ := pushAll_spec k.tx.toList (k := k.setRx (Vector.replicate 64 0) 0) (by simp)
  refine ⟨by simpa using hlen, fun i hi => ?_⟩
  have hbyte := hnew i (by simpa using hi)
  simpa only [Codec.setRx_rxlen, BitVec.ofNat_eq_ofNat, BitVec.toNat_zero, Nat.zero_add, Vector.getElem_toList,
    pushAll_tx, Codec.setRx_tx] using hbyte

/-! ### Programs of operations (R88, R203) -/

/-- A word of an operation runs the operation. -/
theorem codecStep_encode (c : Config) (i : Instr) (k : Codec) :
    codecStep c (encode i) k = (nextCodec k (opResult c i k), responseOf (opResult c i k)) := by
  rw [codecStep, wordResult, decode_encode]

/-- The codec and the responses of an operation, from its answer at any machine with that codec. -/
theorem codecStep_encode_of_answers {i : Instr} {s : State} {k : Codec} {st : Status} {d : Word}
    (h : Answers i s k st d) : codecStep hardware (encode i) s.codec = (k, ⟨st, d⟩) := by
  obtain ⟨hnext, hresp⟩ := (answers_iff ..).mp h
  rw [codecStep_encode, hnext, hresp]

theorem codecRun_append (c : Config) (ws ws' : List CmdWord) (k : Codec) :
    codecRun c (ws ++ ws') k =
      ((codecRun c ws' (codecRun c ws k).1).1, (codecRun c ws k).2 ++ (codecRun c ws' (codecRun c ws k).1).2) := by
  induction ws generalizing k with
  | nil => rfl
  | cons w ws ih => simp [codecRun, ih]

/-- An operation that completes hands its codec on to the rest of the program. -/
theorem codecRun_cons_of_complete {c : Config} {i : Instr} {k k' : Codec} {d : Word}
    (h : opResult c i k = .complete k' d) (is : List Instr) :
    codecRun c ((i :: is).map encode) k =
      ((codecRun c (is.map encode) k').1, ⟨.ok, d⟩ :: (codecRun c (is.map encode) k').2) := by
  simp only [List.map_cons, codecRun, codecStep_encode, h, nextCodec_complete, responseOf_complete]

theorem codecRun_packb (c : Config) (p : List Byte) (k : Codec) :
    codecRun c ((p.map Instr.packb).map encode) k = (appendBytes p k, List.replicate p.length ⟨.ok, 0⟩) := by
  induction p generalizing k with
  | nil => rfl
  | cons b p ih =>
    rw [List.map_cons, codecRun_cons_of_complete (opResult_of_pack c (i := .packb b) rfl k), ih]
    rfl

theorem codecRun_rxpush (c : Config) (bs : List Byte) (k : Codec) :
    codecRun c ((bs.map Instr.rxpush).map encode) k = (pushAll bs k, List.replicate bs.length ⟨.ok, 0⟩) := by
  induction bs generalizing k with
  | nil => rfl
  | cons b bs ih =>
    have hpush : opResult c (.rxpush b) k = .complete (pushRx b k) 0 := rfl
    rw [List.map_cons, codecRun_cons_of_complete hpush, ih]
    rfl

/-- `CMD` with at most eight bytes answers `OK` throughout and leaves their frame in `TX` (R88, R111). -/
theorem codecRun_expandCmd (c : Config) (o : Byte) {p : List Byte} (hp : p.length ≤ 8) (k : Codec) :
    ∃ k', codecRun c ((expandCmd o p).map encode) k = (k', List.replicate (p.length + 2) ⟨.ok, 0⟩) ∧
      k'.tx = composeFrame c o p := by
  have hpbrst : opResult c .pbrst k = .complete (k.setPacker (Vector.replicate 8 0) 0 false) 0 := rfl
  have hempty := standsFor_empty k
  have hpacked := hempty.append (appendBytes_appended p _ hempty.plen_le)
  have hpovf := hpacked.2.2.trans (decide_eq_false (Nat.not_lt.mpr hp))
  have hcompose : opResult c (.compose o) (appendBytes p (k.setPacker (Vector.replicate 8 0) 0 false)) =
      .complete ((appendBytes p (k.setPacker (Vector.replicate 8 0) 0 false)).setTx (composeFrame c o p) true) 0 := by
    rw [opResult, composeOp, hpovf, hpacked.packedBytes hp]
    rfl
  refine ⟨(appendBytes p (k.setPacker (Vector.replicate 8 0) 0 false)).setTx (composeFrame c o p) true, ?_, rfl⟩
  rw [expandCmd, List.cons_append, codecRun_cons_of_complete hpbrst, List.map_append, codecRun_append, codecRun_packb,
    codecRun_cons_of_complete hcompose, List.replicate_succ, List.replicate_succ']
  rfl

/-- `LOOPBACK` answers `OK` throughout and receives the frame in `TX` (R88). -/
theorem codecRun_expandLoopback (c : Config) (k : Codec) :
    ∃ k', codecRun c ((expandLoopback k.tx).map encode) k = (k', List.replicate 17 ⟨.ok, 0⟩) ∧
      LoopedBack k' ∧ k'.tx = k.tx := by
  have hrxclr : opResult c .rxclr k = .complete (k.setRx (Vector.replicate 64 0) 0) 0 := rfl
  refine ⟨_, ?_, loopedBack_pushAll k, pushAll_tx _ _⟩
  rw [expandLoopback, expandRxload, codecRun_cons_of_complete hrxclr, codecRun_rxpush, Vector.length_toList]
  rfl

/-- The state of a machine with this codec, nothing issued and nothing answered. -/
def State.ofCodec (k : Codec) : State where
  codec := k
  pending := []
  rsps := []

/-- Settles O29: the two pseudo-operations leave a composed frame received, and that frame gives the three answers. -/
theorem roundTripThroughTheCommandPort : Obligations.RoundTripThroughTheCommandPort := by
  intro k o p hp
  obtain ⟨k₁, hcmd, htx₁⟩ := codecRun_expandCmd hardware o hp k
  obtain ⟨k₂, hloop, hback, htx₂⟩ := codecRun_expandLoopback hardware k₁
  obtain ⟨hclassify, hopcodeof, d, hverify⟩ := LoopedBack.answers (u := .ofCodec k₂) hback (htx₂.trans htx₁)
  have hclassify := codecStep_encode_of_answers hclassify
  have hopcodeof := codecStep_encode_of_answers hopcodeof
  have hverify := codecStep_encode_of_answers hverify
  refine ⟨List.replicate (p.length + 2) ⟨.ok, 0⟩ ++ List.replicate 17 ⟨.ok, 0⟩, d, ?_, ?_, ?_⟩
  · simp only [State.ofCodec, BitVec.ofNat_toNat] at hclassify hopcodeof hverify ⊢
    simp [runLines, expandLine, outputs, hcmd, hloop, codecRun, hclassify, hopcodeof, hverify]
  · simp only [List.mem_append, List.mem_replicate]
    rintro r (⟨-, h⟩ | ⟨-, h⟩) <;> exact h
  · simp

end Sys2Proof.Machine

namespace Sys2Proof.Machine

/-! ### Classification and admission (R73, R113, R142) -/

/-- Settles O32: the table's rows are evaluated; that tags are distinct and `MAGIC[0]` is one are R6's constraints. -/
theorem frameTypeTable : Obligations.FrameTypeTable :=
  ⟨rfl, rfl, mem_all, fun _ _ h => hardware_wellFormed.2 h, hardware_wellFormed.1⟩

/-- A well-formed frame of a type that the operation does not take is of the wrong family (R113, R142). -/
theorem answers_wrongFrameFamily {s : State} {t : FrameType} (h : HoldsFrame s.codec t) :
    (t ≠ .command → Answers .verify s s.codec .wrongFrameFamily 0) ∧
    (t ≠ .inventory ∧ t ≠ .access → Answers .decinv s s.codec .wrongFrameFamily 0) := by
  have hok := (classifyFrame_eq_ok_iff s.codec t).mpr h
  refine ⟨fun hne => ?_, fun ⟨hinv, hacc⟩ => ?_⟩
  · rw [answers_iff]
    simp [opResult, verifyOp, hok, hne]
  · rw [answers_iff]
    simp [opResult, decinvOp, hok, hinv, hacc]

/-- Settles O34: the classifier's refusals in its order, then the family test on what it accepts. -/
theorem verifyAndDecinvAdmission : Obligations.VerifyAndDecinvAdmission := by
  intro s i hi
  have refused {st : Status} (h : classifyFrame hardware s.codec = .error st) : Answers i s s.codec st 0 :=
    answers_of_classify_error s i (.inr hi) st h
  refine ⟨fun hempty => refused (classifyFrame_of_empty hardware s.codec hempty),
    fun hne htag => refused (classifyFrame_of_unknown hardware s.codec hne htag),
    fun t htag hlen => refused (classifyFrame_of_length s.codec t htag.symm hlen), fun t hframe hverify hdecinv => ?_⟩
  obtain ⟨onVerify, onDecinv⟩ := answers_wrongFrameFamily hframe
  rcases hi with rfl | rfl
  · exact onVerify (hverify rfl)
  · exact onDecinv (hdecinv rfl)

theorem declaredLength_pos (t : FrameType) : 0 < declaredLength t := by cases t <;> decide

theorem declaredLength_le (t : FrameType) : declaredLength t ≤ 64 := by cases t <;> decide

/-- Settles O35: the push keeps the first byte, so the tag, and makes the length one more than the tag's own. -/
theorem pushWithoutRxclrTruncatesTheNextFrame : Obligations.PushWithoutRxclrTruncatesTheNextFrame := by
  intro s t b ⟨htag, hlen⟩
  have hpos := declaredLength_pos t
  have hmax := declaredLength_le t
  obtain ⟨hpushed, hbytes⟩ := pushRx_spec b (k := s.codec) (by omega)
  have hfirst : (pushRx b s.codec).rx[0] = s.codec.rx[0] := by rw [hbytes 0 (by decide), if_neg (by omega)]
  have hrefused : classifyFrame hardware (pushRx b s.codec) = .error .truncatedFrame :=
    classifyFrame_of_length _ t (hfirst.trans htag) (by omega)
  exact ⟨_, answers_rxpush s b, hfirst, fun i hi => answers_of_classify_error _ i hi _ hrefused⟩

/-! ### `OPCODEOF` (R130) -/

/-- Settles O36: in range the answer and the symbolic result look up the same entry. -/
theorem opcodeofResolvesTheUnsignedByte : Obligations.OpcodeofResolvesTheUnsignedByte := by
  intro s
  refine ⟨fun hshort => ?_, fun hlong => ?_⟩
  · have hout : rxn s.codec < 6 := by unfold rxn; omega
    rw [answers_iff]
    simp [opResult, opcodeofOp, hout]
  · have hin : ¬ rxn s.codec < 6 := by unfold rxn; omega
    have hanswer := answers_opcodeof hlong
    have hdata : BitVec.ofNat 32 s.codec.rx[5].toNat = s.codec.rx[5].setWidth 32 := BitVec.ofNat_toNat ..
    refine ⟨fun cmd hcmd => ?_, fun hnone => ?_⟩
    · rw [hcmd] at hanswer
      exact ⟨hdata ▸ hanswer, by simp [symbolicOpcode, hin, hcmd]⟩
    · rw [hnone] at hanswer
      exact ⟨hdata ▸ hanswer, by simp [symbolicOpcode, hin, hnone]⟩

/-! ### The statuses of each operation (R170) -/

/-- How `COMPOSE` can answer. -/
theorem responseOf_composeOp_cases (c : Config) (opcode : Byte) (k : Codec) :
    responseOf (composeOp c opcode k) = ⟨.ok, 0⟩ ∨ responseOf (composeOp c opcode k) = ⟨.parameterOverflow, 0⟩ := by
  unfold composeOp
  split
  · exact .inr rfl
  · exact .inl rfl

/-- How `CLASSIFY` can answer. -/
theorem responseOf_classifyOp_cases (k : Codec) :
    (responseOf (classifyOp hardware k)).status = .ok ∨
    responseOf (classifyOp hardware k) = ⟨.truncatedFrame, 0⟩ ∨
    responseOf (classifyOp hardware k) = ⟨.unknownFrameType, 0⟩ := by
  unfold classifyOp
  rcases classifyFrame_cases k with h | h | ⟨t, h, -⟩ <;> rw [h]
  · exact .inr (.inl rfl)
  · exact .inr (.inr rfl)
  · exact .inl rfl

/-- How `OPCODEOF` can answer. -/
theorem responseOf_opcodeofOp_cases (c : Config) (k : Codec) :
    (responseOf (opcodeofOp c k)).status = .ok ∨ (responseOf (opcodeofOp c k)).status = .unknownOpcode ∨
    responseOf (opcodeofOp c k) = ⟨.truncatedFrame, 0⟩ := by
  unfold opcodeofOp
  split_ifs
  · exact .inr (.inr rfl)
  · split
    · exact .inr (.inl rfl)
    · exact .inl rfl

/-- How `VERIFY` can answer. -/
theorem responseOf_verifyOp_cases (k : Codec) :
    (responseOf (verifyOp hardware k)).status = .ok ∨ (responseOf (verifyOp hardware k)).status = .checksumMismatch ∨
    responseOf (verifyOp hardware k) = ⟨.truncatedFrame, 0⟩ ∨
    responseOf (verifyOp hardware k) = ⟨.unknownFrameType, 0⟩ ∨
    responseOf (verifyOp hardware k) = ⟨.wrongFrameFamily, 0⟩ := by
  unfold verifyOp
  rcases classifyFrame_cases k with h | h | ⟨t, h, -⟩ <;> rw [h]
  · exact .inr (.inr (.inl rfl))
  · exact .inr (.inr (.inr (.inl rfl)))
  · dsimp only
    split_ifs
    · exact .inl rfl
    · exact .inr (.inl rfl)
    · exact .inr (.inr (.inr (.inr rfl)))

/-- How `DECINV` can answer. -/
theorem responseOf_decinvOp_cases (k : Codec) :
    (responseOf (decinvOp hardware k)).status = .ok ∨
    responseOf (decinvOp hardware k) = ⟨.truncatedFrame, 0⟩ ∨
    responseOf (decinvOp hardware k) = ⟨.unknownFrameType, 0⟩ ∨
    responseOf (decinvOp hardware k) = ⟨.wrongFrameFamily, 0⟩ ∨
    responseOf (decinvOp hardware k) = ⟨.crcInvalidFlag, 0⟩ := by
  rcases decinvOp_cases k with ⟨-, e⟩ | ⟨-, e⟩ | ⟨_, -, -, -, e⟩ | ⟨_, -, -, ⟨-, e⟩ | ⟨-, -, e⟩ | ⟨-, -, e⟩⟩ <;>
    simp [e]

/-- How an operation that is a bounded read can answer. -/
theorem responseOf_boundedRead_cases {r : OpResult} {k : Codec} {off w : Nat} {d : Word} (h : r = boundedRead k off w d) :
    (responseOf r).status = .ok ∨ responseOf r = ⟨.truncatedFrame, 0⟩ := by
  rw [h, boundedRead]
  split
  · exact .inl rfl
  · exact .inr rfl

/-- Settles O57: how the operation can answer, case by case. -/
theorem eachStatusComesFromItsOperations : Obligations.EachStatusComesFromItsOperations := by
  intro i s t r h hr
  obtain ⟨-, -, hrsps⟩ := exec_next_inv h
  have hresp : r = responseOf (opResult hardware i s.codec) := by simpa [hr] using hrsps
  subst hresp
  have read {off w : Nat} {d : Word} (hi : opResult hardware i s.codec = boundedRead s.codec off w d) :=
    responseOf_boundedRead_cases hi
  cases i with
  | pbrst | packb v | packs v | packi v | rxclr | rxpush b | trclr => exact ⟨trivial, fun hne => absurd rfl hne⟩
  | compose opcode =>
    rcases responseOf_composeOp_cases hardware opcode s.codec with e | e <;> simp [opResult, e]
  | classify =>
    rcases responseOf_classifyOp_cases s.codec with e | e | e <;> simp [opResult, e]
  | opcodeof =>
    rcases responseOf_opcodeofOp_cases hardware s.codec with e | e | e <;> simp [opResult, e]
  | verify =>
    rcases responseOf_verifyOp_cases s.codec with e | e | e | e | e <;> simp [opResult, e]
  | decinv =>
    rcases responseOf_decinvOp_cases s.codec with e | e | e | e | e <;> simp [opResult, e]
  | rdb off | rds off le | rdi off le | rdver off =>
    rcases read rfl with e | e <;> simp [e]

end Sys2Proof.Machine

namespace Sys2Proof.Machine

/-! ### `TRCLR` and `DECINV` on a flagged frame (R140, R142) -/

/-- Settles O37: `TRCLR` writes the empty record. -/
theorem trclrEmptiesTheRecord : Obligations.TrclrEmptiesTheRecord := by
  intro s
  exact ⟨TagRecord.empty, rfl, fun i h => Vector.getElem_replicate h, rfl, rfl, rfl, rfl, rfl, rfl, rfl, rfl, rfl, rfl,
    rfl, rfl⟩

/-- Settles O39: on an admitted frame the flag is the first test. -/
theorem crcFlaggedFrameIsDiscardedSilently : Obligations.CrcFlaggedFrameIsDiscardedSilently := by
  intro s hadm hflag
  have hcrc : crcFlagged s.codec.rx = true := hflag
  refine ⟨?_, rfl⟩
  rw [answers_iff]
  simp [opResult, decinvOp_of_admitted _ hadm, decodeFrame, hcrc]

/-! ### What a completed decode commits (R141 to R147) -/

/-- The offset of the identifier without the block: 28 on a first frame, 16 on a continuation (R143). -/
theorem idStart_eq_ite (k : Codec) :
    idStart k.rx = (if FirstFrame k then 28 else 16) + (if HasTelemetry k then 8 else 0) := by
  rw [idStart_eq, dataStart_eq_ite, telemSize_eq_ite]
  split_ifs <;> rfl

/-- The data word of a decode in range, by the committed length and the two flags (R81). -/
theorem decinvData_of_commit (k : Codec) (hb : idOutOfRange k.rx = false) (tr : TagRecord) :
    (decinvData (frameTelem k.rx) (frameFirst k.rx) (idLength k.rx).toNat).toNat =
      (commitRecord k.rx tr).epclen.toNat + (if FirstFrame k then 256 else 0) + (if HasTelemetry k then 512 else 0) := by
  obtain ⟨n, hn, -, hmax, -⟩ := idLength_of_inRange k.rx hb
  have hlen := (commitRecord_identifier k hb tr).1
  have hcount : (idLength k.rx).toNat = (commitRecord k.rx tr).epclen.toNat := by omega
  rw [decinvData_toNat _ _ _ (by omega), hcount]
  simp only [frameFirst_iff, frameTelem_iff]

/-- Settles O40: an accepted length is one in range, and the commit in range stores the identifier. -/
theorem decinvExtractsTheIdentifier : Obligations.DecinvExtractsTheIdentifier := by
  intro s hadm hvalid haccepted
  have hb := (idInRange_iff_accepted s.codec).mpr haccepted
  obtain ⟨-, hbytes, hzero⟩ := commitRecord_identifier s.codec hb s.codec.tr
  obtain ⟨hlen, -⟩ := commitRecord_identifier_place s.codec hb s.codec.tr
  rw [telemSize_eq_ite] at hlen
  rw [idStart_eq_ite] at hbytes
  exact ⟨_, _, decinv_ok_of s hadm hvalid hb, rfl, (commitRecord_id s.codec.rx s.codec.tr).1, hlen, hbytes, hzero,
    decinvData_of_commit s.codec hb s.codec.tr⟩

/-- Settles O41: the commit writes the field on a first frame and leaves it otherwise. -/
theorem decinvRssiOnFirstFramesOnly : Obligations.DecinvRssiOnFirstFramesOnly := by
  intro s k d h
  obtain ⟨-, -, -, rfl, -⟩ := decinv_ok_inv h
  obtain ⟨hrssi, hvalid⟩ := commitRecord_rssi s.codec.rx s.codec.tr
  rw [Codec.setTr_tr, hrssi, hvalid]
  refine ⟨fun hfirst => ?_, fun hcont => ?_⟩
  · have hflag := (frameFirst_iff s.codec).mpr hfirst
    simp [hflag, half_toNat]
  · have hflag : frameFirst s.codec.rx = false := Bool.eq_false_iff.mpr (hcont ∘ (frameFirst_iff s.codec).mp)
    simp [hflag]

/-- Settles O43: a commit without the block leaves its fields. -/
theorem decinvKeepsFieldsTheFrameLacks : Obligations.DecinvKeepsFieldsTheFrameLacks := by
  intro s k d h hno
  obtain ⟨-, -, -, rfl, -⟩ := decinv_ok_inv h
  have hflag : frameTelem s.codec.rx = false := Bool.eq_false_iff.mpr (hno ∘ (frameTelem_iff s.codec).mp)
  obtain ⟨hport, hphase, htemp, hfreq, hportV, hphaseV, htempV, hfreqV⟩ :=
    commitRecord_noTelem s.codec.rx s.codec.tr hflag
  exact ⟨hport, hportV, hphase, hphaseV, htemp, htempV, hfreq, hfreqV⟩

/-! ### `DECINV` again (R56) -/

/-- A commit writes what it wrote before: its fields are computed from the frame alone. -/
theorem commitRecord_idem (rx : Vector Byte 64) (tr : TagRecord) :
    commitRecord rx (commitRecord rx tr) = commitRecord rx tr := by
  cases htelem : frameTelem rx <;> cases hfirst : frameFirst rx <;>
    simp [commitRecord, commitTelem, commitRssi, commitId, htelem, hfirst]

/-- Any answer but `OK` comes with the codec as it was (R176). -/
theorem Answers.codec_eq_of_not_ok {i : Instr} {s : State} {k : Codec} {st : Status} {d : Word} (h : Answers i s k st d)
    (hst : st ≠ .ok) : k = s.codec := by
  obtain ⟨hnext, hresp⟩ := (answers_iff ..).mp h
  rw [← hnext, nextCodec_of_not_ok (hresp ▸ hst)]

/-- Settles O45: a failure leaves the codec, and a commit is not changed by the same commit. -/
theorem decinvIsIdempotent : Obligations.DecinvIsIdempotent := by
  intro s t k st d h ht
  by_cases hst : st = .ok
  · subst hst
    obtain ⟨hadm, hcrc, hb, hk, rfl⟩ := decinv_ok_inv h
    rw [hk] at ht ⊢
    have hagain := decinv_ok_of t (ht ▸ hadm) (ht ▸ hcrc) (ht ▸ hb)
    rw [ht, Codec.setTr_rx, Codec.setTr_tr, commitRecord_idem] at hagain
    exact hagain
  · have hk := h.codec_eq_of_not_ok hst
    exact h.of_codec_eq (ht.trans hk)

/-! ### Frames that agree on what the layout names (R74 to R76) -/

/-- Two receive buffers agree on everything the layout of an Inventory or Access frame names: the sequence byte, the three flags,
the info length, the RSSI of a first frame, the fields of a telemetry block, and the identifier. -/
structure NamedBitsAgree (k u : Codec) : Prop where
  seq : k.rx[5] = u.rx[5]
  valid : k.rx[7].getLsbD 0 = u.rx[7].getLsbD 0
  flag1 : k.rx[7].getLsbD 1 = u.rx[7].getLsbD 1
  flag3 : k.rx[7].getLsbD 3 = u.rx[7].getLsbD 3
  infoLo : k.rx[10] = u.rx[10]
  infoHi : k.rx[11] = u.rx[11]
  rssi : FirstFrame k → k.rx[22] = u.rx[22] ∧ k.rx[23] = u.rx[23]
  block : HasTelemetry k → ∀ j, j ∈ [0, 2, 4, 5, 6, 7] → k.rx[dataStart k.rx + j]? = u.rx[dataStart k.rx + j]?
  phase : HasTelemetry k → ∀ b c, k.rx[dataStart k.rx + 1]? = some b → u.rx[dataStart k.rx + 1]? = some c →
    b.toNat % 64 = c.toNat % 64
  ident : ∀ i, i + 16 + telemSize k.rx < 4 * infoLen k → k.rx[idStart k.rx + i]? = u.rx[idStart k.rx + i]?

namespace NamedBitsAgree

variable {k u : Codec}

theorem frameFirst_eq (h : NamedBitsAgree k u) : frameFirst k.rx = frameFirst u.rx := by
  rw [frameFirst, h.seq, frameFirst]

theorem crcFlagged_eq (h : NamedBitsAgree k u) : crcFlagged k.rx = crcFlagged u.rx := h.valid

theorem frameTelem_eq (h : NamedBitsAgree k u) : frameTelem k.rx = frameTelem u.rx :=
  congrArg₂ and h.flag1 h.flag3

theorem dataStart_eq (h : NamedBitsAgree k u) : dataStart k.rx = dataStart u.rx := by
  rw [dataStart, h.frameFirst_eq, dataStart]

theorem telemSize_eq (h : NamedBitsAgree k u) : telemSize k.rx = telemSize u.rx := by
  rw [telemSize, h.frameTelem_eq, telemSize]

theorem idStart_eq (h : NamedBitsAgree k u) : idStart k.rx = idStart u.rx := by
  rw [idStart, h.dataStart_eq, h.telemSize_eq, idStart]

theorem idLength_eq (h : NamedBitsAgree k u) : idLength k.rx = idLength u.rx := by
  rw [Machine.idLength_eq, h.infoLo, h.infoHi, h.telemSize_eq, ← Machine.idLength_eq]

theorem idOutOfRange_eq (h : NamedBitsAgree k u) : idOutOfRange k.rx = idOutOfRange u.rx := by
  rw [idOutOfRange, h.idLength_eq, h.idStart_eq, idOutOfRange]

theorem idBytes_eq (h : NamedBitsAgree k u) : idBytes k.rx = idBytes u.rx := by
  unfold idBytes
  congr 1
  funext i
  rw [← h.idLength_eq, ← h.idStart_eq]
  split_ifs with hi
  · have hlen := idLength_eq_infoLen k
    rw [byteAt_eq_getElem?, byteAt_eq_getElem?, h.ident i (by omega)]
  · rfl

theorem commitId_eq (h : NamedBitsAgree k u) (tr : TagRecord) : commitId k.rx tr = commitId u.rx tr := by
  rw [commitId, h.idLength_eq, h.idBytes_eq, commitId]

theorem commitRssi_eq (h : NamedBitsAgree k u) (tr : TagRecord) : commitRssi k.rx tr = commitRssi u.rx tr := by
  unfold commitRssi
  rw [← h.frameFirst_eq]
  split_ifs with hfirst
  · obtain ⟨hlo, hhi⟩ := h.rssi ((frameFirst_iff k).mp hfirst)
    rw [hlo, hhi]
  · rfl

/-- The bytes of a block that are read whole. -/
theorem byteAt_block (h : NamedBitsAgree k u) (ht : HasTelemetry k) {j : Nat} (hj : j ∈ [0, 2, 4, 5, 6, 7]) :
    byteAt k.rx (dataStart k.rx + j) = byteAt u.rx (dataStart k.rx + j) := by
  rw [byteAt_eq_getElem?, byteAt_eq_getElem?, h.block ht j hj]

/-- The six bits of the phase. -/
theorem phase_eq (h : NamedBitsAgree k u) (ht : HasTelemetry k) :
    (byteAt k.rx (dataStart k.rx + 1)).extractLsb' 0 6 = (byteAt u.rx (dataStart k.rx + 1)).extractLsb' 0 6 := by
  have hstart := dataStart_le k.rx
  have hmod := h.phase ht _ _ (getElem?_eq_some_byteAt k.rx (by omega)) (getElem?_eq_some_byteAt u.rx (by omega))
  rw [← BitVec.toNat_inj, BitVec.extractLsb'_toNat, BitVec.extractLsb'_toNat]
  exact hmod

theorem commitTelem_eq (h : NamedBitsAgree k u) (tr : TagRecord) : commitTelem k.rx tr = commitTelem u.rx tr := by
  unfold commitTelem
  rw [← h.frameTelem_eq, ← h.dataStart_eq]
  split_ifs with htelem
  · have ht := (frameTelem_iff k).mp htelem
    have byte := fun j => h.byteAt_block ht (j := j)
    have hport := byte 0 (by decide)
    have htemp := byte 2 (by decide)
    have hfreq : wordAt k.rx (dataStart k.rx + 4) true = wordAt u.rx (dataStart k.rx + 4) true := by
      simp only [wordAt_littleEndian, Nat.add_assoc]
      rw [byte 4 (by decide), byte 5 (by decide), byte 6 (by decide), byte 7 (by decide)]
    rw [h.phase_eq ht, htemp, hfreq, show byteAt k.rx (dataStart k.rx) = byteAt u.rx (dataStart k.rx) from hport]
  · rfl

theorem commitRecord_eq (h : NamedBitsAgree k u) (tr : TagRecord) : commitRecord k.rx tr = commitRecord u.rx tr := by
  rw [commitRecord, h.commitId_eq, h.commitRssi_eq, h.commitTelem_eq, commitRecord]

/-- Two admitted frames that agree answer alike and leave the same record. -/
theorem decodeFrame_eq (h : NamedBitsAgree k u) (htr : k.tr = u.tr) :
    responseOf (decodeFrame k) = responseOf (decodeFrame u) ∧
    (nextCodec k (decodeFrame k)).tr = (nextCodec u (decodeFrame u)).tr := by
  unfold decodeFrame
  rw [h.crcFlagged_eq, h.idOutOfRange_eq, h.frameTelem_eq, h.frameFirst_eq, h.idLength_eq, htr, h.commitRecord_eq]
  split_ifs
  · exact ⟨rfl, htr⟩
  · exact ⟨rfl, htr⟩
  · exact ⟨rfl, rfl⟩

end NamedBitsAgree

/-- Settles O46: the hypotheses are agreement on the named bits, from which the decode computes everything. -/
theorem decinvIgnoresEveryUnnamedBit : Obligations.DecinvIgnoresEveryUnnamedBit := by
  intro s u hs hu htr hseq hvalid hflag1 hflag3 hlo hhi hrssi hplaces k st d h
  obtain ⟨hblock, hphase, hident⟩ := hplaces _ _ (dataStart_eq_ite s.codec) (telemSize_eq_ite s.codec)
  have hagree : NamedBitsAgree s.codec u.codec :=
    ⟨hseq, hvalid, hflag1, hflag3, hlo, hhi, hrssi, hblock, hphase, hident⟩
  obtain ⟨hresp, hrecord⟩ := hagree.decodeFrame_eq htr
  obtain ⟨hnext, hst⟩ := (answers_iff ..).mp h
  rw [opResult, decinvOp_of_admitted _ hs] at hnext hst
  refine ⟨nextCodec u.codec (decodeFrame u.codec), (answers_iff ..).mpr ?_, by rw [← hrecord, hnext]⟩
  rw [opResult, decinvOp_of_admitted _ hu]
  exact ⟨rfl, hresp.symm.trans hst⟩

end Sys2Proof.Machine

namespace Sys2Proof.Machine

/-! ### Reads of the stored frame (R160, R161, R164) -/

/-- Settles O48: that the byte exists bounds the read by the 64 stored bytes. -/
theorem rdbReturnsTheByteUnsigned : Obligations.RdbReturnsTheByteUnsigned := by
  intro s off b hlen hb
  have hsize : off.toNat < 64 := (Vector.getElem?_eq_some_iff.mp hb).1
  have hrange : off.toNat + 1 ≤ rxn s.codec := Nat.le_min.mpr ⟨hlen, hsize⟩
  refine ⟨_, ?_, answers_rdb s off hrange⟩
  rw [BitVec.toNat_setWidth_of_le (by decide), byteAt_of_getElem?_eq_some hb]

theorem answers_rdver (s : State) (off : Byte) (h : off.toNat + 3 ≤ rxn s.codec) :
    Answers (.rdver off) s s.codec .ok (versionData (byteAt s.codec.rx off.toNat) (byteAt s.codec.rx (off.toNat + 1))
      (byteAt s.codec.rx (off.toNat + 2))) :=
  answers_of_boundedRead rfl h

/-- The data word of `RDVER`: three bytes in offset order, the top byte 0 (R81). -/
theorem versionData_toNat (b0 b1 b2 : Byte) :
    (versionData b0 b1 b2).toNat = b0.toNat + 2 ^ 8 * b1.toNat + 2 ^ 16 * b2.toNat :=
  word_toNat b0 b1 b2 0

/-- Settles O51: the operation and the host's text read the same three bytes under the same bound. -/
theorem rdverReturnsThreeBytesInOrder : Obligations.RdverReturnsThreeBytesInOrder := by
  intro s off b0 b1 b2 hlen h0 h1 h2
  have hsize : off.toNat + 2 < 64 := (Vector.getElem?_eq_some_iff.mp h2).1
  have hrange : off.toNat + 3 ≤ rxn s.codec := Nat.le_min.mpr ⟨hlen, hsize⟩
  have hanswer := answers_rdver s off hrange
  rw [versionText, if_pos hrange]
  rw [byteAt_of_getElem?_eq_some h0, byteAt_of_getElem?_eq_some h1, byteAt_of_getElem?_eq_some h2] at hanswer ⊢
  exact ⟨⟨_, versionData_toNat b0 b1 b2, hanswer⟩, rfl⟩

/-- Settles O52: the four reads are the bounded read of their width. -/
theorem readsBeyondTheStoredBytesAreTruncated : Obligations.ReadsBeyondTheStoredBytesAreTruncated :=
  fun _ _ _ => ⟨answers_truncated_of_boundedRead rfl, answers_truncated_of_boundedRead rfl,
    answers_truncated_of_boundedRead rfl, answers_truncated_of_boundedRead rfl⟩

end Sys2Proof.Machine

namespace Sys2Proof.Machine

/-! ### Reset (R42, R190) and the listings' words (R80) -/

/-- Settles O1: the decoder evaluated on each word. -/
theorem listedWordsDecode : Obligations.ListedWordsDecode := by
  unfold Obligations.ListedWordsDecode
  decide

/-- Settles O13: the buffers are zero vectors, the other registers are evaluated. -/
theorem resetValues : Obligations.ResetValues :=
  ⟨fun _ h => Vector.getElem_replicate h, rfl, rfl, fun _ h => Vector.getElem_replicate h, rfl,
    fun _ h => Vector.getElem_replicate h, rfl, fun _ h => Vector.getElem_replicate h, rfl, rfl, rfl, rfl, rfl, rfl, rfl,
    rfl, rfl, rfl, rfl, rfl, rfl, rfl⟩

/-- Settles O14: the three clears write every register but `TX` and `TXVALID`, with reset's values. -/
theorem resetEqualsTheThreeClears : Obligations.ResetEqualsTheThreeClears :=
  fun s => ⟨_, _, _, exec_eq_deliver .pbrst s, exec_eq_deliver .rxclr _, exec_eq_deliver .trclr _, rfl⟩

/-! ### Which operations use the parameters (R6, R114, R182) -/

/-- Settles O59: only the frame composer and the verifier name the checksum, only the opcode lookup names the table; the
classifier, which three operations share, names the tags alone. -/
theorem onlyTheNamedOperationsUseTheParameters : Obligations.OnlyTheNamedOperationsUseTheParameters := by
  intro c i k
  refine ⟨fun hcompose hverify f => ?_, fun hopcodeof t => ?_⟩
  · cases i with
    | compose o => exact absurd rfl (hcompose o)
    | verify => exact absurd rfl hverify
    | opcodeof =>
      simp only [opResult, opcodeofOp]
      cases c.opcodeTable k.rx[5] <;> rfl
    | pbrst | packb v | packs v | packi v | rxclr | rxpush b | classify | trclr | decinv | rdb off
    | rds off le | rdi off le | rdver off => rfl
  · cases i with
    | opcodeof => exact absurd rfl hopcodeof
    | pbrst | packb v | packs v | packi v | compose o | rxclr | rxpush b | classify | verify | trclr | decinv | rdb off
    | rds off le | rdi off le | rdver off => rfl

end Sys2Proof.Machine

namespace Sys2Proof.Machine

/-! ### Hex text (R150) -/

/-- A nibble's digit is the character at its place in the row of digits. -/
theorem digits_getElem? {n : Nat} (h : n < 16) : "0123456789ABCDEF".toList[n]? = some (hexDigit n) := by
  rw [hexDigit, List.getD_eq_getElem?_getD]
  have hlen : "0123456789ABCDEF".toList.length = 16 := by decide
  rw [List.getElem?_eq_getElem (by omega), Option.getD_some]

@[simp] theorem hex2_length (b : Byte) : (hex2 b).length = 2 := rfl

/-- The two characters of a byte, high nibble first. -/
theorem hex2_getElem? (b : Byte) :
    (hex2 b)[0]? = "0123456789ABCDEF".toList[b.toNat / 16]? ∧
    (hex2 b)[1]? = "0123456789ABCDEF".toList[b.toNat % 16]? := by
  have hb : b.toNat < 256 := b.isLt
  rw [digits_getElem? (by omega), digits_getElem? (by omega)]
  exact ⟨rfl, rfl⟩

theorem renderHexChars_false_cons (b : Byte) (bs : List Byte) :
    renderHexChars false (b :: bs) = hex2 b ++ renderHexChars false bs := by
  cases bs <;> simp [renderHexChars]

theorem renderHexChars_true_cons_cons (b b' : Byte) (bs : List Byte) :
    renderHexChars true (b :: b' :: bs) = hex2 b ++ ' ' :: renderHexChars true (b' :: bs) := by
  simp [renderHexChars]

theorem renderHexChars_false_length (bs : List Byte) : (renderHexChars false bs).length = 2 * bs.length := by
  induction bs with
  | nil => rfl
  | cons b bs ih => rw [renderHexChars_false_cons, List.length_append, ih, hex2_length, List.length_cons]; omega

theorem renderHexChars_true_length (bs : List Byte) : (renderHexChars true bs).length = 3 * bs.length - 1 := by
  induction bs with
  | nil => rfl
  | cons b bs ih =>
    cases bs with
    | nil => rfl
    | cons b' bs =>
      rw [renderHexChars_true_cons_cons, List.length_append, List.length_cons, ih, hex2_length]
      simp only [List.length_cons]
      omega

/-- Without spaces, byte `i` stands at `2 * i`. -/
theorem renderHexChars_false_getElem? {bs : List Byte} {i j : Nat} (hi : i < bs.length) (hj : j < 2) :
    (renderHexChars false bs)[2 * i + j]? = (hex2 bs[i])[j]? := by
  induction bs generalizing i with
  | nil => exact absurd hi (Nat.not_lt_zero i)
  | cons b bs ih =>
    rw [renderHexChars_false_cons]
    cases i with
    | zero => rw [List.getElem?_append_left (by simpa using hj)]; simp
    | succ i =>
      rw [List.getElem?_append_right (by rw [hex2_length]; omega), hex2_length,
        show 2 * (i + 1) + j - 2 = 2 * i + j by omega]
      exact ih (by simpa using hi)

/-- With spaces, byte `i` and the space after it stand at `3 * i`; the last byte has no space. -/
theorem renderHexChars_true_getElem? {bs : List Byte} {i j : Nat} (hi : i < bs.length) (hj : j < 3)
    (hlast : j < 2 ∨ i + 1 < bs.length) : (renderHexChars true bs)[3 * i + j]? = (hex2 bs[i] ++ [' '])[j]? := by
  induction bs generalizing i with
  | nil => exact absurd hi (Nat.not_lt_zero i)
  | cons b bs ih =>
    cases bs with
    | nil =>
      obtain rfl : i = 0 := by simpa using hi
      have hj2 : j < 2 := by simpa using hlast
      rw [List.getElem?_append_left (by simpa using hj2)]
      simp [renderHexChars]
    | cons b' bs =>
      rw [renderHexChars_true_cons_cons, ← List.singleton_append, ← List.append_assoc]
      cases i with
      | zero => rw [List.getElem?_append_left (by simpa using hj)]; simp
      | succ i =>
        rw [List.getElem?_append_right (by simp; omega), List.length_append, hex2_length, List.length_singleton,
          show 3 * (i + 1) + j - (2 + 1) = 3 * i + j by omega]
        exact ih (by simpa using hi) (by simpa using hlast)

/-- Settles O60: the places of the digits by induction on the bytes, the digits by the row they are taken from. -/
theorem renderHexDigits : Obligations.RenderHexDigits := by
  intro bytes
  refine ⟨renderHexChars_false_length bytes, fun i h => ?_, renderHexChars_true_length bytes, fun i h => ?_⟩
  · obtain ⟨hhigh, hlow⟩ := hex2_getElem? bytes[i]
    rw [← hhigh, ← hlow]
    exact ⟨renderHexChars_false_getElem? (j := 0) h (by decide), renderHexChars_false_getElem? (j := 1) h (by decide)⟩
  · obtain ⟨hhigh, hlow⟩ := hex2_getElem? bytes[i]
    rw [← hhigh, ← hlow]
    exact ⟨renderHexChars_true_getElem? (j := 0) h (by decide) (.inl (by decide)),
      renderHexChars_true_getElem? (j := 1) h (by decide) (.inl (by decide)),
      fun hnext => renderHexChars_true_getElem? (j := 2) h (by decide) (.inr hnext)⟩

end Sys2Proof.Machine
